-- ==== Sys2Proof/Word.lean ====
section
/-! DEFINITION. The two value types of the unit (00_scope.md R5, R6, R8): 64-bit words and bytes, both unsigned. -/

namespace Sys2Proof

/-- `WORD` of R5: lanes, block values, digests, DIN, DOUT, TOTAL and the command word are 64 bits wide. -/
abbrev Word := BitVec 64

/-- A byte is an unsigned 8-bit value (R8). -/
abbrev Byte := BitVec 8

end Sys2Proof
end

