-- ==== Sys2Proof/Machine/Bytes.lean ====
section
/-! DEFINITION. Byte order of the data path and of the register window (00_scope.md R8, R9; 20_memory.md R42, R43):
little-endian throughout. -/

namespace Sys2Proof.Machine

/-- `v.byte(i) = v[8*i+7 : 8*i]` (R9, R42a). -/
def byteLane (v : Word) (i : Nat) : Byte := v.extractLsb' (8 * i) 8

/-- Byte lanes 0 to n-1 of a word, in input order (R61, R91). -/
def byteLanes (n : Nat) (v : Word) : List Byte := (List.range n).map (byteLane v)

/-- The bytes of `s` placed from byte position `k` upwards: byte i of `s` at bits `8*(k+i)` (R8, R90). -/
def le64At (k : Nat) : List Byte → Word
  | [] => 0
  | b :: s => (b.zeroExtend 64 <<< (8 * k)) ||| le64At (k + 1) s

/-- `le64(s)` of R8: byte i occupies bits `[8*i+7 : 8*i]`, bits at and above `8*len(s)` are zero. Bytes from index 8 on,
which no rule passes, have no place in the word and are dropped (log entry 19). -/
def le64 (s : List Byte) : Word := le64At 0 s

/-- `s[lo..hi)` of R8. -/
def slice (s : List Byte) (lo hi : Nat) : List Byte := (s.drop lo).take (hi - lo)

end Sys2Proof.Machine
end

