-- ==== Sys2Proof/Config.lean ====
section
/-! DEFINITION. What is fixed for a unit (the structural parameters of 00_scope.md R5 and the window geometry of
20_memory.md R41) and the FREE VALUES the spec leaves open: what a unit holds when power returns after a loss
(60_exceptions.md R145: no state is promised to survive). The numeric constants K, K_INV and the seeds stand in
Sys2Proof/Machine/Constants.lean. -/

namespace Sys2Proof.Config

/-- `NLANES` of R5. -/
abbrev laneCount : Nat := 4

/-- `BLOCK` and `PBCAP` of R5: the bytes of one folded block, and the capacity of the pending buffer. -/
abbrev blockBytes : Nat := 8

/-- `MAX_WRITE` of R5: the bytes one WRITE command can carry. -/
abbrev maxWrite : Nat := 8

/-- The longest tail: TAILPACK takes 0 to 7 bytes (R60). -/
abbrev maxTail : Nat := 7

/-- The register window is 32 bytes long and `REG_BASE` is a multiple of 32 (R41). -/
abbrev windowBytes : Nat := 32

/-- Every host access to the window is exactly 8 bytes wide and 8-byte aligned (R44, R45). -/
abbrev accessBytes : Nat := 8

/-! FREE VALUES (log entry 5): the contents of the unit when power has returned after the `loss`-th loss of power and no
reset has happened yet, for the unit whose window lies at `32 * block`. None has a body, so nothing can be proved of a value.
What they depend on is the model's choice: the spec promises nothing of what two units, or one unit in two runs, then hold
(10_state.md R34, 60_exceptions.md R145). -/

/-- Free: a lane (elements 0 to 3), TOTAL (4), DIN (5) or DOUT (6) after a loss of power. -/
opaque powerUpWord : (block loss : Nat) → (element : Nat) → Word

/-- Free: the lane index after a loss of power. -/
opaque powerUpIndex : (block loss : Nat) → Fin 4

/-- Free: the pending bytes after a loss of power. -/
opaque powerUpBytes : (block loss : Nat) → List Byte

/-- Free: ERR (element 0) or DVALID (element 1) after a loss of power. -/
opaque powerUpBit : (block loss : Nat) → (element : Nat) → Bool

/-- Free: ECAUSE after a loss of power. -/
opaque powerUpCause : (block loss : Nat) → BitVec 4

end Sys2Proof.Config
end

