-- ==== Sys2Proof/Syntax.lean ====
section
/-! DEFINITION. The command set SHDU-CMD v1 (30_encoding.md R59): one constructor per row of spec/opcode_table.json. -/

namespace Sys2Proof

/-- The six commands. `len` is the 4-bit field LEN of the command word (R58, R60); the other four commands require
LEN = 0 and so have no operand. -/
inductive Instr where
  /-- `init`, OP 0x1 (R100). -/
  | init
  /-- `write n`, OP 0x2 (R101). -/
  | write (len : BitVec 4)
  /-- `finish`, OP 0x3 (R105). -/
  | finish
  /-- `diffuse`, OP 0x4 (R80). -/
  | diffuse
  /-- `undiffuse`, OP 0x5 (R81). -/
  | undiffuse
  /-- `tailpack n`, OP 0x6 (R91). -/
  | tailpack (len : BitVec 4)
  deriving DecidableEq, Repr

end Sys2Proof
end

