-- ==== Sys2Proof/WellFormed.lean ====
section
/-! DEFINITION. Which commands are legal: the LEN ranges of 30_encoding.md R60. -/

namespace Sys2Proof

/-- R60: WRITE requires `0 <= LEN <= 8`, TAILPACK requires `0 <= LEN <= 7`; the others have no LEN operand. -/
def Instr.wf : Instr → Bool
  | .init => true
  | .write len => decide (len.toNat ≤ Config.maxWrite)
  | .finish => true
  | .diffuse => true
  | .undiffuse => true
  | .tailpack len => decide (len.toNat ≤ Config.maxTail)

/-- The command is one that some legal command word encodes. -/
abbrev Instr.WellFormed (i : Instr) : Prop := i.wf = true

end Sys2Proof
end

