-- ==== Sys2Proof/Decode.lean ====
section
/-! DEFINITION. The command word: its fields (30_encoding.md R58), its decoding (R62, total on every 64-bit word), and the
encoder written from the same tables (R59, R67). -/

namespace Sys2Proof

/-- Why a command word is illegal (60_exceptions.md R131). -/
inductive IllegalCause where
  /-- Code 1: `c[3:0]` is 0x0 or 0x7..0xF. -/
  | illegalOp
  /-- Code 2: the opcode is legal and `c[63:8] != 0`. -/
  | reservedBits
  /-- Code 3: the opcode is legal, `c[63:8] = 0`, and LEN is outside R60. -/
  | badLen
  deriving DecidableEq, Repr

/-- What a 64-bit word written to CMD is: exactly one legal command, or illegal with exactly one cause (R62). -/
inductive Decoded where
  | legal (i : Instr)
  | illegal (cause : IllegalCause)
  deriving DecidableEq, Repr

/-- `OP = c[3:0]` (R58). -/
def opField (c : Word) : BitVec 4 := c.extractLsb' 0 4

/-- `LEN = c[7:4]` (R58). -/
def lenField (c : Word) : BitVec 4 := c.extractLsb' 4 4

/-- `RSV = c[63:8]` (R58). -/
def rsvField (c : Word) : BitVec 56 := c.extractLsb' 8 56

/-- The opcode map of R59; `none` for 0x0 and 0x7..0xF. -/
def commandOf (op len : BitVec 4) : Option Instr :=
  match op.toNat with
  | 1 => some .init
  | 2 => some (.write len)
  | 3 => some .finish
  | 4 => some .diffuse
  | 5 => some .undiffuse
  | 6 => some (.tailpack len)
  | _ => none

/-- The LEN values R60 allows for a command. -/
def lenLegal (i : Instr) (len : BitVec 4) : Bool :=
  match i with
  | .init => len == 0
  | .write _ => decide (len.toNat ≤ Config.maxWrite)
  | .finish => len == 0
  | .diffuse => len == 0
  | .undiffuse => len == 0
  | .tailpack _ => decide (len.toNat ≤ Config.maxTail)

/-- R62: the checks in their order, the first that fails deciding the cause. -/
def decode (c : Word) : Decoded :=
  match commandOf (opField c) (lenField c) with
  | none => .illegal .illegalOp
  | some i =>
    if rsvField c ≠ 0 then .illegal .reservedBits
    else if lenLegal i (lenField c) then .legal i
    else .illegal .badLen

/-- The decoder on bytes as the window lays them out (R43, little-endian): the first 8 bytes are one command word.
`none`: fewer than 8 bytes are no command word, since every access is exactly 8 bytes wide (R45). -/
def decodeBytes (bs : List Byte) : Option (Decoded × List Byte) :=
  if 8 ≤ bs.length then some (decode (Machine.le64 (bs.take 8)), bs.drop 8) else none

/-- The `OP` value of a command (R59). -/
def opcode : Instr → BitVec 4
  | .init => 1
  | .write _ => 2
  | .finish => 3
  | .diffuse => 4
  | .undiffuse => 5
  | .tailpack _ => 6

/-- The `LEN` value of a command: its operand, or 0 (R60). -/
def lenOperand : Instr → BitVec 4
  | .init => 0
  | .write len => len
  | .finish => 0
  | .diffuse => 0
  | .undiffuse => 0
  | .tailpack len => len

/-- The command word `OP OR (LEN << 4)` (R58, R67). -/
def encode (i : Instr) : Word := (opcode i).zeroExtend 64 ||| ((lenOperand i).zeroExtend 64 <<< 4)

/-- The command word of `nbits` bits whose bits are `w`, all higher bits 0. -/
def tableWord (nbits w : Nat) : Word := BitVec.ofNat 64 (w % 2 ^ nbits)

/-- The instruction the decoder reads from an instruction of `nbits` bits, numbered as spec/opcode_table.json numbers
them: the command word is one 64-bit word, bit 0 its least significant bit (R58, R65). -/
def decodeTableWord (nbits w : Nat) : Option Instr :=
  match decode (tableWord nbits w) with
  | .legal i => some i
  | .illegal _ => none

end Sys2Proof
end

