-- ==== Sys2Proof/Machine/Constants.lean ====
section
/-! DEFINITION. The hardwired constants (10_state.md R30): one block, so that a corrected value needs one edit
(92_eei_decisions.md D26). The spec itself marks K, the windows and the seeds as general knowledge (93, G1 to G3):
log entry 9. -/

namespace Sys2Proof.Machine

/-- The diffusion multiplier (R75). -/
def K : Word := 0x6eed0e9da4d94a4f

/-- The inverse multiplier: the inverse of K modulo 2^64 (R76). -/
def KInv : Word := 0x2f72b4215a3d8caf

/-- The wide window is `x >> 32` (R77). -/
def wideShift : Nat := 32

/-- The narrow window is `x >> 60` (R77). -/
def narrowShift : Nat := 60

/-- `SEED0` (R21). -/
def seed0 : Word := 0x16f11fe89b0d677c

/-- `SEED1` (R21). -/
def seed1 : Word := 0xb480a793d8e6c86c

/-- `SEED2` (R21). -/
def seed2 : Word := 0x6fe2e5aaf078ebc9

/-- `SEED3` (R21). -/
def seed3 : Word := 0x14f994a4c5259381

end Sys2Proof.Machine
end

