-- ==== Sys2Proof/Machine/State.lean ====
section
/-! DEFINITION. The machine's state: every element of 10_state.md R20, and beside it the model's own fields (the host's
pending events, what host reads returned, where the window lies, whether the unit was reset since power-on). -/

namespace Sys2Proof.Machine

/-- The accumulator file `LANE[0..3]` (R21): four 64-bit words. -/
structure Lanes where
  l0 : Word
  l1 : Word
  l2 : Word
  l3 : Word
  deriving DecidableEq, Repr

/-- STATUS (R28). The reserved bits 3:2 and 63:8 are hardwired 0 and so have no storage; the 64-bit word the host reads
is `Status.toWord` (Machine/Flags.lean). -/
structure Status where
  /-- Bit 0, sticky. -/
  err : Bool
  /-- Bit 1. -/
  dvalid : Bool
  /-- Bits 7:4. -/
  ecause : BitVec 4
  deriving DecidableEq, Repr

/-- What a host access does. `write` carries the 64-bit value of an 8-byte write (R45); accesses of another width have
no meaning and are refused whatever they carry. -/
inductive AccessKind where
  | read
  | write (value : Word)
  deriving DecidableEq, Repr

/-- One host access (R10, R41): where, how many bytes wide, and what. DESIGN CHOICE (log entry 18): the spec gives the host's
address space no width, so an address is any natural number and an access never wraps round into the window. -/
structure Access where
  addr : Nat
  width : Nat
  kind : AccessKind
  deriving DecidableEq, Repr

/-- What the outside world can do to the unit (60_exceptions.md R139, R145). -/
inductive HostEvent where
  /-- A host access. -/
  | access (a : Access)
  /-- Reset, together with the host access it overlaps, if any (R139). -/
  | reset (overlapped : Option Access)
  /-- Power is lost and comes back (R145). -/
  | powerLoss
  deriving DecidableEq, Repr

/-- Why the machine stops. Both are the model's answers to something the host or the platform does; no command stops. -/
inductive Fault where
  /-- Raised by `serveAccess` for an access no byte of which lies in the register window: the unit decodes no such
  address (20_memory.md R47). Safe. -/
  | outsideWindow (addr : Nat)
  /-- Raised by `serveAccess` for an access after a loss of power and before a reset: the unit must be reset before use
  (R145, R152). Safe. -/
  | notReset
  deriving DecidableEq, Repr

/-- What the model gives no step. -/
inductive Refusal where
  /-- Raised by an arm of `exec` whose command has no meaning yet; no arm does. Safe. -/
  | notModelled (mnemonic : String)
  /-- Raised by `serveAccess` for an access to the window that is not 8 bytes wide (20_memory.md R45, 60_exceptions.md R137). Safe. -/
  | badWidth (width : Nat)
  /-- Raised by `serveAccess` for an access to the window that is not 8-byte aligned (R44, R137). Safe. -/
  | misaligned (addr : Nat)
  deriving DecidableEq, Repr

/-- The state. The first seven fields are R20's elements (PBC is the length of `pb`, R24; CMD has no storage, R29);
the rest are the model's own (log entries 1 to 5). -/
structure State where
  /-- `LANE[0..3]` (R21). -/
  lanes : Lanes
  /-- `LI`, the 2-bit lane index (R22). -/
  li : Fin 4
  /-- `TOTAL` (R23). -/
  total : Word
  /-- `PB`, oldest byte first (R24). -/
  pb : List Byte
  /-- `DIN` (R26). -/
  din : Word
  /-- `DOUT` (R27). -/
  dout : Word
  /-- `STATUS` (R28). -/
  status : Status
  /-- Model's own: the unit has been reset since power-on (R145, R152). -/
  ready : Bool
  /-- Model's own: how many times power was lost; numbers the free values of Config. -/
  powerLosses : Nat
  /-- Model's own: REG_BASE divided by 32 (R41: REG_BASE is an open parameter, a multiple of 32). -/
  regBlock : Nat
  /-- Model's own: the events still to come, in the order in which the unit serves them (R49, R50). -/
  pending : List HostEvent
  /-- Model's own: the values that host reads returned, newest first. -/
  readLog : List Word
  deriving DecidableEq, Repr

/-- `PBC = len(PB)` (R24). -/
def State.pbc (s : State) : Nat := s.pb.length

/-- The lanes after reset and INIT (R21). -/
def seedLanes : Lanes := ⟨seed0, seed1, seed2, seed3⟩

/-- STATUS after reset (R33). -/
def clearStatus : Status := ⟨false, false, 0⟩

/-- The machine right after reset (R33, R150). The fields that are no element of R20 hold what log entries 1 to 5 say:
nothing pending, nothing read yet, the window at address 0. -/
def State.reset : State where
  lanes := seedLanes
  li := 0
  total := 0
  pb := []
  din := 0
  dout := 0
  status := clearStatus
  ready := true
  powerLosses := 0
  regBlock := 0
  pending := []
  readLog := []

end Sys2Proof.Machine
end

