-- ==== Sys2Proof/Machine/Flags.lean ====
section
/-! DEFINITION. STATUS: the word the host reads and every way a field of it changes (10_state.md R28, 60_exceptions.md
R131, R133). Only reset clears a field. -/

namespace Sys2Proof.Machine

/-- The 64-bit word of STATUS: ERR in bit 0, DVALID in bit 1, ECAUSE in bits 7:4, every other bit hardwired 0 (R28). -/
def Status.toWord (st : Status) : Word :=
  (BitVec.ofBool st.err).zeroExtend 64 ||| ((BitVec.ofBool st.dvalid).zeroExtend 64 <<< 1)
    ||| (st.ecause.zeroExtend 64 <<< 4)

/-- `STATUS.DVALID <- 1` (R80, R81, R91, R105). -/
def Status.setValid (st : Status) : Status := { st with dvalid := true }

/-- The code of a cause in ECAUSE (R131). -/
def causeCode : IllegalCause → BitVec 4
  | .illegalOp => 1
  | .reservedBits => 2
  | .badLen => 3

/-- R133: ECAUSE takes the code only while ERR is 0; ERR becomes 1. -/
def Status.recordIllegal (cause : IllegalCause) (st : Status) : Status :=
  { st with err := true, ecause := if st.err then st.ecause else causeCode cause }

end Sys2Proof.Machine
end

