-- ==== Sys2Proof/Machine/Operands.lean ====
section
/-! DEFINITION. The operands of the commands (30_encoding.md R61) and the accumulator file's read and write. -/

namespace Sys2Proof.Machine

/-- The whole-word operand of DIFFUSE and UNDIFFUSE: DIN (R61). -/
def dinWord (s : State) : Word := s.din

/-- The byte operand of WRITE and TAILPACK: byte lanes 0 to n-1 of DIN; higher lanes are ignored (R61). -/
def dinBytes (n : Nat) (s : State) : List Byte := byteLanes n s.din

/-- `LANE[i]` (R9). -/
def Lanes.get (l : Lanes) (i : Fin 4) : Word :=
  match i with
  | 0 => l.l0
  | 1 => l.l1
  | 2 => l.l2
  | 3 => l.l3

/-- `LANE[i] <- v` (R9): the other three lanes keep their values. -/
def Lanes.set (l : Lanes) (i : Fin 4) (v : Word) : Lanes :=
  match i with
  | 0 => { l with l0 := v }
  | 1 => { l with l1 := v }
  | 2 => { l with l2 := v }
  | 3 => { l with l3 := v }

/-- `T[0] XOR T[1] XOR T[2] XOR T[3]` (R105). -/
def Lanes.xorAll (l : Lanes) : Word := l.l0 ^^^ l.l1 ^^^ l.l2 ^^^ l.l3

end Sys2Proof.Machine
end

