-- ==== Sys2Proof/Machine/Ops.lean ====
section
/-! DEFINITION. The shared operations: the mixer, the tail packer, the fold, the digest, the result write, the
illegal-command action (this unit's only exception), reset and loss of power, and the registers of the window. -/

namespace Sys2Proof.Machine

/-- The xor-shift step `g(x) = x XOR ((x >> 32) >> (x >> 60))` (40_diffusion.md R77, R82). -/
def xorShift (x : Word) : Word := x ^^^ ((x >>> wideShift) >>> (x >>> narrowShift))

/-- `diffuse` (R78), in the form R83 writes it, `K * g(K * x)`: multiply by K, xor-shift, multiply by K, all modulo 2^64. (The
constant stands first because the kernel would unfold a product by its second factor.) -/
def diffuse (x : Word) : Word := K * xorShift (K * x)

/-- `undiffuse` (R79), `K_INV * g(K_INV * x)`: the same sequence with K_INV. -/
def undiffuse (x : Word) : Word := KInv * xorShift (KInv * x)

/-- `tailpack(s) = le64(s)` (41_tail_packer.md R90), for at most 7 bytes. DESIGN CHOICE (log entry 19): R90 gives longer sequences
no value; this total function gives `le64` there too, which only FINISH in a state no run reaches (PB longer than 7 bytes)
uses. -/
def tailpack (s : List Byte) : Word := le64 s

/-- The lane update of a fold: `L[i] <- diffuse(L[i] XOR v)` (42_stream_engine.md R103). -/
def Lanes.mix (l : Lanes) (i : Fin 4) (v : Word) : Lanes := l.set i (diffuse (l.get i ^^^ v))

/-- `fold(v)` (R103): mix v into `LANE[LI]`, then advance LI modulo 4. -/
def fold (v : Word) (s : State) : State := { s with lanes := s.lanes.mix s.li v, li := s.li + 1 }

/-- `absorb_byte(b)` (R102): append b to PB; at 8 bytes, fold PB and empty it. (The test is R102's `PBC = 8`, so
an already longer PB, which R24 rules out, would only grow: log entry 19.) -/
def absorbByte (s : State) (b : Byte) : State :=
  if (s.pb ++ [b]).length = Config.blockBytes then { fold (le64 (s.pb ++ [b])) s with pb := [] }
  else { s with pb := s.pb ++ [b] }

/-- The loop of WRITE (R101): absorb the bytes in order. -/
def absorb (bytes : List Byte) (s : State) : State := bytes.foldl absorbByte s

/-- The engine part of reset and the whole effect of INIT (R100). -/
def initEngine (s : State) : State := { s with lanes := seedLanes, li := 0, total := 0, pb := [] }

/-- The lanes FINISH combines (R105): a copy of LANE, with a non-empty tail mixed into lane LI. -/
def finalLanes (s : State) : Lanes := if 0 < s.pbc then s.lanes.mix s.li (tailpack s.pb) else s.lanes

/-- The digest FINISH computes (R105). -/
def digest (s : State) : Word := diffuse ((finalLanes s).xorAll ^^^ s.total)

/-- A result command's last act: `DOUT <- v; STATUS.DVALID <- 1` (R80, R81, R91, R105). -/
def writeResult (v : Word) (s : State) : State := { s with dout := v, status := s.status.setValid }

/-- `raise IllegalCommand(code)` (60_exceptions.md R133): only STATUS.ERR and, the first time, STATUS.ECAUSE change. There is no
trap entry and no return (R135, R136). -/
def raiseIllegal (cause : IllegalCause) (s : State) : State := { s with status := s.status.recordIllegal cause }

/-- The reset event (70_reset_and_hazards.md R150): every element of R20 takes its reset value. The host's side stays. -/
def resetUnit (s : State) : State :=
  { s with
    lanes := seedLanes, li := 0, total := 0, pb := [], din := 0, dout := 0, status := clearStatus, ready := true }

/-- Power is lost and comes back (R145): no element of R20 is promised to survive, so each holds a free value, and the
unit must be reset before use. DESIGN CHOICE (log entry 5), unsafe for a claim that compares units: the free value depends
on where the unit's window lies, on the number of the loss and on the element, and not on what stood there before nor on
which instance it is, so two units alike in the first two hold equal contents. The spec says nothing of that (R34, R145). -/
def losePower (s : State) : State :=
  { s with
    lanes := ⟨Config.powerUpWord s.regBlock s.powerLosses 0, Config.powerUpWord s.regBlock s.powerLosses 1,
      Config.powerUpWord s.regBlock s.powerLosses 2, Config.powerUpWord s.regBlock s.powerLosses 3⟩
    li := Config.powerUpIndex s.regBlock s.powerLosses
    total := Config.powerUpWord s.regBlock s.powerLosses 4
    pb := Config.powerUpBytes s.regBlock s.powerLosses
    din := Config.powerUpWord s.regBlock s.powerLosses 5
    dout := Config.powerUpWord s.regBlock s.powerLosses 6
    status := ⟨Config.powerUpBit s.regBlock s.powerLosses 0, Config.powerUpBit s.regBlock s.powerLosses 1,
      Config.powerUpCause s.regBlock s.powerLosses⟩
    ready := false
    powerLosses := s.powerLosses + 1 }

/-- `REG_BASE`: any multiple of 32 (R41). -/
def State.regBase (s : State) : Nat := Config.windowBytes * s.regBlock

/-- The four registers of the window (30_encoding.md R55). -/
inductive Reg where
  | cmd
  | din
  | dout
  | status
  deriving DecidableEq, Repr

/-- The byte offset of a register from REG_BASE (R55). -/
def Reg.offset : Reg → Nat
  | .cmd => 0x00
  | .din => 0x08
  | .dout => 0x10
  | .status => 0x18

/-- The register at a byte offset of the window (R55). -/
def Reg.atOffset (off : Nat) : Option Reg :=
  if off = 0x00 then some .cmd
  else if off = 0x08 then some .din
  else if off = 0x10 then some .dout
  else if off = 0x18 then some .status
  else none

/-- What a host read of a register returns (R55): CMD reads as 0 (R57). -/
def readReg (r : Reg) (s : State) : Word :=
  match r with
  | .cmd => 0
  | .din => s.din
  | .dout => s.dout
  | .status => s.status.toWord

/-- The byte view of the window (20_memory.md R43): byte k of the register at offset `off` is bits `[8*k+7 : 8*k]` of what it
reads as; `none` outside the window. The view is only for mapping a host memory image: no access is narrower than a
register. -/
def windowByte (s : State) (addr : Nat) : Option Byte :=
  if s.regBase ≤ addr then
    (Reg.atOffset ((addr - s.regBase) / 8 * 8)).map fun r => byteLane (readReg r s) ((addr - s.regBase) % 8)
  else none

/-- A host read has returned `v`: the unit itself does not change (R46). -/
def logRead (v : Word) (s : State) : State := { s with readLog := v :: s.readLog }

end Sys2Proof.Machine
end

