-- ==== Sys2Proof/Machine/Diffusion.lean ====
section
/-! DEFINITION. The diffusion commands (40_diffusion.md). -/

namespace Sys2Proof.Machine

/-- DIFFUSE (R80): `DOUT <- diffuse(DIN); STATUS.DVALID <- 1`. -/
def execDiffuse (s : State) : Host.Outcome State Fault Refusal :=
  .next (writeResult (diffuse (dinWord s)) s)

/-- UNDIFFUSE (R81): `DOUT <- undiffuse(DIN); STATUS.DVALID <- 1`. -/
def execUndiffuse (s : State) : Host.Outcome State Fault Refusal :=
  .next (writeResult (undiffuse (dinWord s)) s)

end Sys2Proof.Machine
end

