-- ==== Sys2Proof/Machine/Stream.lean ====
section
/-! DEFINITION. The streaming engine's commands (42_stream_engine.md). -/

namespace Sys2Proof.Machine

/-- INIT (R100): the engine takes its seeds; DIN, DOUT and STATUS stay. -/
def execInit (s : State) : Host.Outcome State Fault Refusal := .next (initEngine s)

/-- WRITE n (R101): `TOTAL <- TOTAL + n`, then absorb byte lanes 0 to n-1 of DIN. A word with n >= 9 is illegal with cause
BAD_LEN (R60, R131); the decoder never gives such a command, and this meaning records the same error. -/
def execWrite (len : BitVec 4) (s : State) : Host.Outcome State Fault Refusal :=
  if len.toNat ≤ Config.maxWrite then
    .next (absorb (dinBytes len.toNat s) { s with total := s.total + len.zeroExtend 64 })
  else .next (raiseIllegal .badLen s)

/-- FINISH (R105): `DOUT <- digest; STATUS.DVALID <- 1`; the engine's state is only read. -/
def execFinish (s : State) : Host.Outcome State Fault Refusal := .next (writeResult (digest s) s)

end Sys2Proof.Machine
end

