-- ==== Sys2Proof/Machine/Tail.lean ====
section
/-! DEFINITION. The tail packer's command (41_tail_packer.md). -/

namespace Sys2Proof.Machine

/-- TAILPACK n (R91): pack byte lanes 0 to n-1 of DIN into DOUT. A word with n >= 8 is illegal with cause BAD_LEN (R60, R131);
the decoder never gives such a command, and this meaning records the same error. -/
def execTailpack (len : BitVec 4) (s : State) : Host.Outcome State Fault Refusal :=
  if len.toNat ≤ Config.maxTail then .next (writeResult (tailpack (dinBytes len.toNat s)) s)
  else .next (raiseIllegal .badLen s)

end Sys2Proof.Machine
end

