-- ==== Sys2Proof/Machine/Dispatch.lean ====
section
/-! DEFINITION. One arm per command (30_encoding.md R59). -/

namespace Sys2Proof.Machine

def exec (i : Instr) (s : State) : Host.Outcome State Fault Refusal :=
  match i with
  | .init => Sys2Proof.Machine.execInit s
  | .write len => Sys2Proof.Machine.execWrite len s
  | .finish => Sys2Proof.Machine.execFinish s
  | .diffuse => Sys2Proof.Machine.execDiffuse s
  | .undiffuse => Sys2Proof.Machine.execUndiffuse s
  | .tailpack len => Sys2Proof.Machine.execTailpack len s

end Sys2Proof.Machine
end

