-- ==== Sys2Proof/Machine/Serve.lean ====
section
/-! DEFINITION. Serving one event of the host (00_scope.md R10): the register window (20_memory.md, 30_encoding.md), the
command register, reset and loss of power. -/

namespace Sys2Proof.Machine

/-- A write of `c` to CMD (R58): decode, then the command's rule or the illegal-command action. -/
def runCommand (c : Word) (s : State) : Host.Outcome State Fault Refusal :=
  match decode c with
  | .legal i => exec i s
  | .illegal cause => .next (raiseIllegal cause s)

/-- A host write to a register (R55): CMD runs the word, DIN stores it, DOUT and STATUS ignore it (R57). -/
def writeReg (r : Reg) (v : Word) (s : State) : Host.Outcome State Fault Refusal :=
  match r with
  | .cmd => runCommand v s
  | .din => .next { s with din := v }
  | .dout => .next s
  | .status => .next s

/-- An access of either kind to a register. -/
def accessReg (r : Reg) (k : AccessKind) (s : State) : Host.Outcome State Fault Refusal :=
  match k with
  | .read => .next (logRead (readReg r s) s)
  | .write v => writeReg r v s

/-- The access is one to the register window at `base`: its address or some byte of it lies there (R41, R47). -/
def touchesWindow (base : Nat) (a : Access) : Bool :=
  decide (a.addr < base + Config.windowBytes ∧ base < a.addr + max a.width 1)

/-- One host access. The unit decodes no address outside its window (R47); inside it, an access that is not 8 bytes wide
or not 8-byte aligned has no meaning and is refused (R44, R45, R137). -/
def serveAccess (a : Access) (s : State) : Host.Outcome State Fault Refusal :=
  if s.ready = false then .fault .notReset
  else if touchesWindow s.regBase a = false then .fault (.outsideWindow a.addr)
  else if a.width ≠ Config.accessBytes then .refused (.badWidth a.width)
  else
    match if s.regBase ≤ a.addr then Reg.atOffset (a.addr - s.regBase) else none with
    | none => .refused (.misaligned a.addr)
    | some r => accessReg r a.kind s

/-- One event. Reset wins over an access it overlaps, which has no effect (60_exceptions.md R139). -/
def serveEvent (e : HostEvent) (s : State) : Host.Outcome State Fault Refusal :=
  match e with
  | .access a => serveAccess a s
  | .reset _ => .next (resetUnit s)
  | .powerLoss => .next (losePower s)

/-- Serve the oldest pending event whole before the next (R49). With nothing pending the unit holds its state (R145). -/
def serveNext (s : State) : Host.Outcome State Fault Refusal :=
  match s.pending with
  | [] => .next s
  | e :: rest => serveEvent e { s with pending := rest }

/-- An aligned 8-byte host write to a register. -/
def writeAccess (s : State) (r : Reg) (v : Word) : Access := ⟨s.regBase + r.offset, Config.accessBytes, .write v⟩

/-- An aligned 8-byte host read of a register. -/
def readAccess (s : State) (r : Reg) : Access := ⟨s.regBase + r.offset, Config.accessBytes, .read⟩

/-- The host writes the word `c` to CMD before everything still pending; the unit is one that has been reset. -/
def placeCommand (c : Word) (s : State) : State :=
  { s with ready := true, pending := .access (writeAccess s .cmd c) :: s.pending }

end Sys2Proof.Machine
end

