-- ==== Sys2Proof/Machine/Step.lean ====
section
/-! DEFINITION. One step of the machine: one host event (00_scope.md R10). -/

namespace Sys2Proof.Machine

/-- One step: serve the oldest pending event. -/
def step (s : State) : Host.Outcome State Fault Refusal := serveNext s

/-- The unit fetches nothing (20_memory.md R53): a command comes to it as a host write to CMD. So the instruction of `nbits` bits
`w` is placed as the next host access: a write of that word to CMD. -/
def State.withFetchWord (s : State) (nbits w : Nat) : State := placeCommand (tableWord nbits w) s

end Sys2Proof.Machine
end

