-- ==== Sys2Proof/Machine/Assembler.lean ====
section
/-! DEFINITION. Host programs (30_encoding.md R67, R68): the lines, the host access each one is, and the pseudo-instructions. -/

namespace Sys2Proof.Machine

/-- One line of a host program (R67). -/
inductive AsmLine where
  | din (value : Word)
  | init
  | write (n : Nat)
  | finish
  | diffuse
  | undiffuse
  | tailpack (n : Nat)
  /-- `.cmd`: a raw word, legal or not. -/
  | cmd (word : Word)
  | rdDout
  | rdStatus
  deriving DecidableEq, Repr

/-- R67: the host access of a line, on a unit `s`; `none` where an assembler must reject the line. -/
def AsmLine.access (s : State) : AsmLine → Option Access
  | .din v => some (writeAccess s .din v)
  | .init => some (writeAccess s .cmd 0x01)
  | .write n => if n ≤ Config.maxWrite then some (writeAccess s .cmd (0x02 ||| (BitVec.ofNat 64 n <<< 4))) else none
  | .finish => some (writeAccess s .cmd 0x03)
  | .diffuse => some (writeAccess s .cmd 0x04)
  | .undiffuse => some (writeAccess s .cmd 0x05)
  | .tailpack n => if n ≤ Config.maxTail then some (writeAccess s .cmd (0x06 ||| (BitVec.ofNat 64 n <<< 4))) else none
  | .cmd c => some (writeAccess s .cmd c)
  | .rdDout => some (readAccess s .dout)
  | .rdStatus => some (readAccess s .status)

/-- The host events of a program, line by line; `none` if a line must be rejected. -/
def assemble (s : State) (lines : List AsmLine) : Option (List HostEvent) :=
  lines.mapM fun line => (line.access s).map HostEvent.access

/-- The pseudo-instructions (R68). -/
inductive Pseudo where
  | wr (value : Word) (n : Nat)
  | mix (value : Word)
  | unmix (value : Word)
  | pack (value : Word) (n : Nat)
  | absorb (bytes : List Byte)
  | hash (bytes : List Byte)
  deriving DecidableEq, Repr

/-- `absorb s` (R68): for k = 0, 8, 16, ... while k < len(s), `din le64(s[k..min(k+8,len(s)))) ; write min(8, len(s)-k)`. -/
def absorbLines (bytes : List Byte) : List AsmLine :=
  (List.range ((bytes.length + 7) / 8)).flatMap fun j =>
    [.din (le64 (slice bytes (8 * j) (min (8 * j + 8) bytes.length))), .write (min 8 (bytes.length - 8 * j))]

/-- The expansion of a pseudo-instruction (R68). -/
def Pseudo.expand : Pseudo → List AsmLine
  | .wr v n => [.din v, .write n]
  | .mix v => [.din v, .diffuse]
  | .unmix v => [.din v, .undiffuse]
  | .pack v n => [.din v, .tailpack n]
  | .absorb bytes => absorbLines bytes
  | .hash bytes => .init :: (absorbLines bytes ++ [.finish])

/-- The value of a decimal or hexadecimal digit. -/
def digitValue (c : Char) : Option Nat :=
  if '0' ≤ c ∧ c ≤ '9' then some (c.toNat - '0'.toNat)
  else if 'a' ≤ c ∧ c ≤ 'f' then some (c.toNat - 'a'.toNat + 10)
  else if 'A' ≤ c ∧ c ≤ 'F' then some (c.toNat - 'A'.toNat + 10)
  else none

/-- One more digit of a literal in the given base. -/
def addDigit (base : Nat) (acc : Option Nat) (c : Char) : Option Nat :=
  match acc, digitValue c with
  | some v, some d => if d < base then some (v * base + d) else none
  | _, _ => none

/-- A literal of at least one digit. -/
def parseDigits (base : Nat) (cs : List Char) : Option Nat :=
  if cs = [] then none else cs.foldl (addDigit base) (some 0)

/-- `<imm64>` (R67): a decimal or `0x` hex literal below 2^64. -/
def parseImm (cs : List Char) : Option Word :=
  match (match cs with
    | '0' :: 'x' :: ds => parseDigits 16 ds
    | ds => parseDigits 10 ds) with
  | some v => if v < 2 ^ 64 then some (BitVec.ofNat 64 v) else none
  | none => none

/-- The words of a line: what stands between blanks, before any `;` comment (R67). -/
def lineWords (cs : List Char) : List (List Char) :=
  ((cs.takeWhile (· != ';')).splitOnP (fun c => c == ' ' || c == '\t')).filter (· != [])

/-- One line of a host program as written (R67); `none` if it is not of R67's syntax. DESIGN CHOICE (log entry 15): a line with
no word on it, blank or only a `;` comment, is no host access and answers `none` too; the spec does not say whether a
program may hold one. -/
def parseLine (cs : List Char) : Option AsmLine :=
  match lineWords cs with
  | [['i', 'n', 'i', 't']] => some .init
  | [['f', 'i', 'n', 'i', 's', 'h']] => some .finish
  | [['d', 'i', 'f', 'f', 'u', 's', 'e']] => some .diffuse
  | [['u', 'n', 'd', 'i', 'f', 'f', 'u', 's', 'e']] => some .undiffuse
  | [['d', 'i', 'n'], v] => (parseImm v).map .din
  | [['.', 'c', 'm', 'd'], v] => (parseImm v).map .cmd
  | [['w', 'r', 'i', 't', 'e'], n] => (parseDigits 10 n).map .write
  | [['t', 'a', 'i', 'l', 'p', 'a', 'c', 'k'], n] => (parseDigits 10 n).map .tailpack
  | [['r', 'd'], ['d', 'o', 'u', 't']] => some .rdDout
  | [['r', 'd'], ['s', 't', 'a', 't', 'u', 's']] => some .rdStatus
  | _ => none

/-- One line that holds a pseudo-instruction as written (R68), for those whose operands have a written syntax: `absorb` and
`hash` take a byte sequence, for which the spec gives none (log entry 15). -/
def parsePseudo (cs : List Char) : Option Pseudo :=
  match lineWords (cs.flatMap fun c => if c = ',' then [' ', ',', ' '] else [c]) with
  | [['m', 'i', 'x'], v] => (parseImm v).map .mix
  | [['u', 'n', 'm', 'i', 'x'], v] => (parseImm v).map .unmix
  | [['w', 'r'], v, [','], n] =>
    match parseImm v, parseDigits 10 n with
    | some v, some n => some (.wr v n)
    | _, _ => none
  | [['p', 'a', 'c', 'k'], v, [','], n] =>
    match parseImm v, parseDigits 10 n with
    | some v, some n => some (.pack v n)
    | _, _ => none
  | _ => none

end Sys2Proof.Machine
end

