-- ==== Sys2Proof/Machine/Platform.lean ====
section
/-! DEFINITION. Several units on one platform (10_state.md R34, 60_exceptions.md R143). -/

namespace Sys2Proof.Machine

/-- A platform: any number of instances, each with its own state, its own window and its own events. -/
abbrev Platform := List State

/-- Instance k serves its next event; every other instance stands still. `none`: there is no instance k. A stop
of the instance is the answer for the platform's step (log entry 11). -/
def Platform.stepUnit (p : Platform) (k : Nat) : Option (Host.Outcome Platform Fault Refusal) :=
  match p[k]? with
  | none => none
  | some s =>
    match step s with
    | .next s' => some (.next (p.set k s'))
    | .fault f => some (.fault f)
    | .refused r => some (.refused r)

end Sys2Proof.Machine
end

