-- ==== Sys2Proof/Machine/Reference.lean ====
section
/-! DEFINITION. The one-shot reference function `hash` (42_stream_engine.md R107), which the streaming engine must match. It is
no command (R112). -/

namespace Sys2Proof.Machine

/-- The body of R107's loop for block j: `L[i] <- diffuse(L[i] XOR le64(buf[8j..8j+8))); i <- (i+1) mod 4`. -/
def hashBlock (buf : List Byte) (acc : Lanes × Fin 4) (j : Nat) : Lanes × Fin 4 :=
  (acc.1.mix acc.2 (le64 (slice buf (8 * j) (8 * j + 8))), acc.2 + 1)

/-- R107's loop over the full blocks: the lanes and the lane index after it. -/
def hashBlocks (buf : List Byte) : Lanes × Fin 4 :=
  (List.range (buf.length / 8)).foldl (hashBlock buf) (seedLanes, 0)

/-- `buf[8*floor(N/8)..N)`: the tail of 0 to 7 bytes. -/
def hashTail (buf : List Byte) : List Byte := slice buf (8 * (buf.length / 8)) buf.length

/-- The lanes R107 combines: the tail, if any, mixed into the next lane in rotation. -/
def hashLanes (buf : List Byte) : Lanes :=
  if buf.length % 8 ≠ 0 then (hashBlocks buf).1.mix (hashBlocks buf).2 (tailpack (hashTail buf))
  else (hashBlocks buf).1

/-- `hash(buf)` of R107, defined there for lengths below 2^64; for longer inputs R107 gives no value and no statement uses
this one's. -/
def oneShotHash (buf : List Byte) : Word := diffuse ((hashLanes buf).xorAll ^^^ BitVec.ofNat 64 buf.length)

end Sys2Proof.Machine
end

