-- ==== Sys2Proof/Safety.lean ====
section
/-! DEFINITION. The terms statements use: runs, clean runs, the invariants of the engine and of STATUS, the bytes a unit has
accepted, and the interleavings of several hosts. -/

namespace Sys2Proof.Machine

/-- k steps from s end in t, with no stop on the way. -/
abbrev Runs (k : Nat) (s t : State) : Prop := Sys2Proof.core.run k s = .next t

/-- The whole host program in s has been served when t is reached. -/
abbrev Completes (s t : State) : Prop := Runs s.pending.length s t

/-- No illegal command has been written since reset (60_exceptions.md R146: ERR is the fault bit). -/
abbrev State.Clean (s : State) : Prop := s.status.err = false

/-- The invariants of the engine (10_state.md R24, R25 (a) and (b)). -/
abbrev EngineInv (s : State) : Prop :=
  s.pb.length ≤ 7 ∧ s.pb.length = s.total.toNat % 8 ∧ s.li.val = s.total.toNat / 8 % 4

/-- The legal values of STATUS (R28): ECAUSE is one of 0 to 3, and 0 exactly while ERR is 0. -/
abbrev StatusInv (s : State) : Prop :=
  s.status.ecause.toNat ≤ 3 ∧ (s.status.err = false ↔ s.status.ecause = 0)

/-- The model's invariant: a unit that has been reset since power-on meets the invariants of its engine and of STATUS. -/
abbrev Inv (s : State) : Prop := s.ready = true → EngineInv s ∧ StatusInv s

/-- The engine (the hidden state of R32) is as the bytes S, taken in order from the seeds, leave it (R110): each lane holds
the fold of its blocks, LI is the next lane, TOTAL counts S modulo 2^64, and PB is the tail. -/
abbrev EngineHolds (S : List Byte) (s : State) : Prop :=
  s.lanes = (hashBlocks S).1 ∧ s.li = (hashBlocks S).2 ∧ s.total = BitVec.ofNat 64 S.length ∧ s.pb = hashTail S

/-- Two units have the same engine state. -/
abbrev SameEngine (s t : State) : Prop :=
  s.lanes = t.lanes ∧ s.li = t.li ∧ s.total = t.total ∧ s.pb = t.pb

/-- Two units look the same to their hosts: everything but the hidden engine state of R32 agrees. -/
abbrev SameToHost (s t : State) : Prop :=
  s.din = t.din ∧ s.dout = t.dout ∧ s.status = t.status ∧ s.ready = t.ready ∧ s.powerLosses = t.powerLosses ∧
    s.regBlock = t.regBlock ∧ s.pending = t.pending ∧ s.readLog = t.readLog

/-- The command word the event writes to CMD, if it is an aligned 8-byte write there. -/
def HostEvent.command (s : State) : HostEvent → Option Word
  | .access a =>
    match a.kind with
    | .write c => if a.addr = s.regBase ∧ a.width = Config.accessBytes then some c else none
    | .read => none
  | .reset _ => none
  | .powerLoss => none

/-- The bytes accepted since the last INIT or reset (R24, R25 (c)), when `S` were before the event `e` and the unit serves
`e` in state `s`. -/
def acceptedAfter (S : List Byte) (s : State) (e : HostEvent) : List Byte :=
  match e with
  | .reset _ => []
  | .powerLoss => S
  | .access _ =>
    match (e.command s).map decode with
    | some (.legal .init) => []
    | some (.legal (.write len)) => S ++ byteLanes len.toNat s.din
    | _ => S

/-- The bytes accepted since the last INIT or reset after k steps from s, when `S` were before. -/
def acceptedAlong : Nat → List Byte → State → List Byte
  | 0, S, _ => S
  | k + 1, S, s =>
    match s.pending, step s with
    | e :: _, .next s' => acceptedAlong k (acceptedAfter S s e) s'
    | [], .next s' => acceptedAlong k S s'
    | _, _ => S

/-- One software `write` of at most 8 bytes: the host puts the chunk into the byte lanes of DIN and gives WRITE with its
length (30_encoding.md R68, `wr`). `none` if a command stopped. -/
def writeChunk (u : Option State) (chunk : List Byte) : Option State :=
  match u with
  | none => none
  | some s =>
    match exec (.write (BitVec.ofNat 4 chunk.length)) { s with din := le64 chunk } with
    | .next t => some t
    | .fault _ => none
    | .refused _ => none

/-- `write(C1); ...; write(Cn)` (42_stream_engine.md R111). -/
def writeChunks (chunks : List (List Byte)) (s : State) : Option State := chunks.foldl writeChunk (some s)

/-- The event is an aligned 8-byte host write to CMD or DIN of the unit s whose word, if it goes to CMD, is one `ok` allows. -/
abbrev CommandOrDinWrite (s : State) (ok : Word → Prop) (e : HostEvent) : Prop :=
  ∃ w : Word, e = .access ⟨32 * s.regBlock + 0x08, 8, .write w⟩ ∨ (e = .access ⟨32 * s.regBlock, 8, .write w⟩ ∧ ok w)

/-- `order` is one interleaving of the access sequences of several agents, each agent's own order kept
(20_memory.md R50). -/
inductive Interleaves : List (List Access) → List Access → Prop where
  /-- Every agent is done. -/
  | done (agents : List (List Access)) (h : ∀ l ∈ agents, l = []) : Interleaves agents []
  /-- Agent k's next access is served. -/
  | serve (agents : List (List Access)) (k : Nat) (a : Access) (own rest : List Access)
      (hk : agents[k]? = some (a :: own)) (h : Interleaves (agents.set k own) rest) : Interleaves agents (a :: rest)

end Sys2Proof.Machine
end

