-- ==== Sys2Proof/Certificates/Slice0/Obligations.lean ====
section
/-! DEFINITION. The statements for the provers, one `def Obligations.<Name> : Prop` each, listed in OBLIGATIONS.json. -/

open Sys2Proof Sys2Proof.Machine

/-! ## Encoding -/

/-- 30_encoding.md R66: each legal command has exactly one encoding; the masks and matches of the opcode table pick out each
row's words; the legal words are the 21 the rule lists. -/
def Obligations.LegalWordsAreExactlyTwentyOne : Prop :=
  (∀ c : Word,
    (decode c = .legal .init ↔ c &&& 0xffffffffffffffff = 0x01) ∧
    (decode c = .legal .finish ↔ c &&& 0xffffffffffffffff = 0x03) ∧
    (decode c = .legal .diffuse ↔ c &&& 0xffffffffffffffff = 0x04) ∧
    (decode c = .legal .undiffuse ↔ c &&& 0xffffffffffffffff = 0x05) ∧
    (∀ n : BitVec 4, decode c = .legal (.write n) ↔
      c &&& 0xffffffffffffff0f = 0x02 ∧ c.extractLsb' 4 4 = n ∧ n.toNat ≤ 8) ∧
    (∀ n : BitVec 4, decode c = .legal (.tailpack n) ↔
      c &&& 0xffffffffffffff0f = 0x06 ∧ c.extractLsb' 4 4 = n ∧ n.toNat ≤ 7) ∧
    ((∃ i, decode c = .legal i) ↔
      c ∈ [0x01, 0x02, 0x12, 0x22, 0x32, 0x42, 0x52, 0x62, 0x72, 0x82, 0x03, 0x04, 0x05, 0x06, 0x16, 0x26, 0x36, 0x46,
        0x56, 0x66, 0x76])) ∧
  (∀ (c c' : Word) (i : Instr), decode c = .legal i → decode c' = .legal i → c = c')

/-- 30_encoding.md R62: the checks run in order, the first that fails decides the cause, and a word that passes them all is the
command of its opcode with LEN = n. -/
def Obligations.DecodeRunsChecksInOrder : Prop :=
  ∀ c : Word,
    (c.extractLsb' 0 4 ∉ [(1 : BitVec 4), 2, 3, 4, 5, 6] → decode c = .illegal .illegalOp) ∧
    (c.extractLsb' 0 4 ∈ [(1 : BitVec 4), 2, 3, 4, 5, 6] → c.extractLsb' 8 56 ≠ 0 → decode c = .illegal .reservedBits) ∧
    (c.extractLsb' 8 56 = 0 → c.extractLsb' 0 4 ∈ [(1 : BitVec 4), 3, 4, 5] → c.extractLsb' 4 4 ≠ 0 →
      decode c = .illegal .badLen) ∧
    (c.extractLsb' 8 56 = 0 → c.extractLsb' 0 4 = 2 → 8 < (c.extractLsb' 4 4).toNat → decode c = .illegal .badLen) ∧
    (c.extractLsb' 8 56 = 0 → c.extractLsb' 0 4 = 6 → 7 < (c.extractLsb' 4 4).toNat → decode c = .illegal .badLen) ∧
    (c.extractLsb' 8 56 = 0 → c.extractLsb' 4 4 = 0 →
      (c.extractLsb' 0 4 = 1 → decode c = .legal .init) ∧ (c.extractLsb' 0 4 = 3 → decode c = .legal .finish) ∧
      (c.extractLsb' 0 4 = 4 → decode c = .legal .diffuse) ∧ (c.extractLsb' 0 4 = 5 → decode c = .legal .undiffuse)) ∧
    (c.extractLsb' 8 56 = 0 → c.extractLsb' 0 4 = 2 → (c.extractLsb' 4 4).toNat ≤ 8 →
      decode c = .legal (.write (c.extractLsb' 4 4))) ∧
    (c.extractLsb' 8 56 = 0 → c.extractLsb' 0 4 = 6 → (c.extractLsb' 4 4).toNat ≤ 7 →
      decode c = .legal (.tailpack (c.extractLsb' 4 4)))

/-- Decoding and encoding agree both ways: every well-formed command is what its encoding decodes to, and every word that
decodes to a command is that command's encoding, and the command is well-formed. -/
def Obligations.DecodeAndEncodeAgree : Prop :=
  (∀ i : Instr, i.WellFormed → decode (encode i) = .legal i) ∧
  (∀ (c : Word) (i : Instr), decode c = .legal i → i.WellFormed ∧ encode i = c)

/-- 30_encoding.md R69: the worked encodings, legal and illegal. -/
def Obligations.WorkedEncodings : Prop :=
  (encode (.write 8) = 0x0000000000000082 ∧ decode 0x0000000000000082 = .legal (.write 8)) ∧
  (encode (.write 2) = 0x0000000000000022 ∧ decode 0x0000000000000022 = .legal (.write 2)) ∧
  (encode (.tailpack 3) = 0x0000000000000036 ∧ decode 0x0000000000000036 = .legal (.tailpack 3)) ∧
  (encode .finish = 0x0000000000000003 ∧ decode 0x0000000000000003 = .legal .finish) ∧
  decode 0x0000000000000092 = .illegal .badLen ∧
  decode 0x0000000000000103 = .illegal .reservedBits ∧
  decode 0x0000000000000107 = .illegal .illegalOp

/-- A line of a host program (30_encoding.md R67) is one aligned 8-byte access to the window: `din` stores, the command lines write
the encoding of their command to CMD, `.cmd` writes a raw word there, `rd` reads. An assembler rejects `write n` with
n > 8 and `tailpack n` with n > 7. -/
def Obligations.HostLinesAreAccesses : Prop :=
  ∀ s : State,
    (∀ v, AsmLine.access s (.din v) = some ⟨32 * s.regBlock + 0x08, 8, .write v⟩) ∧
    AsmLine.access s .init = some ⟨32 * s.regBlock, 8, .write (encode .init)⟩ ∧
    AsmLine.access s .finish = some ⟨32 * s.regBlock, 8, .write (encode .finish)⟩ ∧
    AsmLine.access s .diffuse = some ⟨32 * s.regBlock, 8, .write (encode .diffuse)⟩ ∧
    AsmLine.access s .undiffuse = some ⟨32 * s.regBlock, 8, .write (encode .undiffuse)⟩ ∧
    (∀ n ≤ 8, AsmLine.access s (.write n) = some ⟨32 * s.regBlock, 8, .write (encode (.write (BitVec.ofNat 4 n)))⟩) ∧
    (∀ n ≤ 7, AsmLine.access s (.tailpack n)
      = some ⟨32 * s.regBlock, 8, .write (encode (.tailpack (BitVec.ofNat 4 n)))⟩) ∧
    (∀ n, 8 < n → AsmLine.access s (.write n) = none) ∧
    (∀ n, 7 < n → AsmLine.access s (.tailpack n) = none) ∧
    (∀ c, AsmLine.access s (.cmd c) = some ⟨32 * s.regBlock, 8, .write c⟩) ∧
    AsmLine.access s .rdDout = some ⟨32 * s.regBlock + 0x10, 8, .read⟩ ∧
    AsmLine.access s .rdStatus = some ⟨32 * s.regBlock + 0x18, 8, .read⟩

/-! ## Reset and power -/

/-- 10_state.md R33: every element's value after reset. The seeds' numbers are marked as general knowledge by the spec (log
entry 9). -/
def Obligations.StateAfterReset : Prop :=
  State.reset.lanes = ⟨0x16f11fe89b0d677c, 0xb480a793d8e6c86c, 0x6fe2e5aaf078ebc9, 0x14f994a4c5259381⟩ ∧
  State.reset.li = 0 ∧ State.reset.total = 0 ∧ State.reset.pb = [] ∧ State.reset.pbc = 0 ∧
  State.reset.din = 0 ∧ State.reset.dout = 0 ∧
  State.reset.status.err = false ∧ State.reset.status.dvalid = false ∧ State.reset.status.ecause = 0 ∧
  readReg .status State.reset = 0

/-- 70_reset_and_hazards.md R150: a reset puts every element at its reset value from every state, and the unit is then ready for host
accesses; an access the reset overlaps has no effect (R139); that an overlapped read leaves nothing in readLog is the model's reading of
that (log entry 12). That the host's side is unchanged but for the served event is the model's choice (log entries 1 and 13); the
seeds' numbers are marked as general knowledge by the spec (log entry 9). -/
def Obligations.ResetEventSetsEveryElement : Prop :=
  ∀ (s : State) (overlapped : Option Access) (rest : List HostEvent), s.pending = .reset overlapped :: rest →
    step s = .next
      { lanes := ⟨0x16f11fe89b0d677c, 0xb480a793d8e6c86c, 0x6fe2e5aaf078ebc9, 0x14f994a4c5259381⟩
        li := 0, total := 0, pb := [], din := 0, dout := 0, status := ⟨false, false, 0⟩, ready := true
        powerLosses := s.powerLosses, regBlock := s.regBlock, pending := rest, readLog := s.readLog }

/-- The reset state meets the model's invariant (10_state.md R24, R25, R28). -/
def Obligations.ResetMeetsInvariant : Prop := Inv State.reset

/-- After a loss of power the unit must be reset before use (60_exceptions.md R145, 70_reset_and_hazards.md R152): the loss leaves it not ready, every host
access then stops with a fault, and a reset makes it ready. That such an access stops by this fault is the model's choice
(log entry 5), and so is that the host's side (pending, regBlock, readLog) survives the loss (log entry 13). -/
def Obligations.PowerLossRequiresReset : Prop :=
  (∀ (s : State) (rest : List HostEvent), s.pending = .powerLoss :: rest →
    ∃ t, step s = .next t ∧ t.ready = false ∧ t.pending = rest ∧ t.regBlock = s.regBlock ∧ t.readLog = s.readLog) ∧
  (∀ (s : State) (a : Access) (rest : List HostEvent), s.ready = false → s.pending = .access a :: rest →
    step s = .fault .notReset) ∧
  (∀ (s : State) (o : Option Access) (rest : List HostEvent), s.ready = false → s.pending = .reset o :: rest →
    ∃ t, step s = .next t ∧ t.ready = true)

/-- With no event pending the unit holds its state (60_exceptions.md R145). -/
def Obligations.IdleUnitHoldsItsState : Prop := ∀ s : State, s.pending = [] → step s = .next s

/-! ## The register window -/

/-- 30_encoding.md R55, 20_memory.md R46: an aligned 8-byte read returns the register at its offset (CMD reads 0) and changes
nothing in the unit. -/
def Obligations.WindowReadsReturnRegisters : Prop :=
  ∀ (s : State) (off : Nat) (v : Word) (rest : List HostEvent),
    (off, v) ∈ [(0x00, 0), (0x08, s.din), (0x10, s.dout), (0x18, s.status.toWord)] →
    s.ready = true → s.pending = .access ⟨32 * s.regBlock + off, 8, .read⟩ :: rest →
    step s = .next { s with pending := rest, readLog := v :: s.readLog }

/-- 30_encoding.md R56: a write of v to DIN sets DIN to v and changes nothing else. -/
def Obligations.DinWriteStoresOnlyDin : Prop :=
  ∀ (s : State) (v : Word) (rest : List HostEvent),
    s.ready = true → s.pending = .access ⟨32 * s.regBlock + 0x08, 8, .write v⟩ :: rest →
    step s = .next { s with pending := rest, din := v }

/-- 30_encoding.md R57: a write to DOUT or STATUS changes no state; a read of CMD returns 0 and changes no state. -/
def Obligations.IgnoredWritesAndZeroRead : Prop :=
  ∀ (s : State) (v : Word) (rest : List HostEvent), s.ready = true →
    (s.pending = .access ⟨32 * s.regBlock + 0x10, 8, .write v⟩ :: rest → step s = .next { s with pending := rest }) ∧
    (s.pending = .access ⟨32 * s.regBlock + 0x18, 8, .write v⟩ :: rest → step s = .next { s with pending := rest }) ∧
    (s.pending = .access ⟨32 * s.regBlock, 8, .read⟩ :: rest →
      step s = .next { s with pending := rest, readLog := 0 :: s.readLog })

/-- A step runs the decoded instruction (30_encoding.md R58): when the next event is a host write to CMD of a word that decodes to
the command i, the step is exec of i at the state in which that event is no longer pending. -/
def Obligations.StepRunsDecodedCommand : Prop :=
  ∀ (s : State) (c : Word) (i : Instr) (rest : List HostEvent),
    s.ready = true → s.pending = .access ⟨32 * s.regBlock, 8, .write c⟩ :: rest → decode c = .legal i →
    step s = exec i { s with pending := rest }

/-- 60_exceptions.md R133: the illegal-command action. ECAUSE takes the code if ERR was 0, ERR becomes 1, nothing else
changes. -/
def Obligations.IllegalCommandOnlyRecordsError : Prop :=
  ∀ (s : State) (c : Word) (cause : IllegalCause) (code : BitVec 4) (rest : List HostEvent),
    (cause, code) ∈ [(.illegalOp, 1), (.reservedBits, 2), (.badLen, 3)] →
    s.ready = true → s.pending = .access ⟨32 * s.regBlock, 8, .write c⟩ :: rest → decode c = .illegal cause →
    step s = .next { s with
      pending := rest
      status := ⟨true, s.status.dvalid, if s.status.err then s.status.ecause else code⟩ }

/-- A unit that has been reset refuses an access to its window that is not exactly 8 bytes wide or not 8-byte aligned, and
no other (20_memory.md R44, R45, 60_exceptions.md R137). The names of the two refusals, and that the width is looked at first, are the
model's choice (log entry 3). -/
def Obligations.MalformedAccessIsRefused : Prop :=
  ∀ (s : State) (a : Access) (rest : List HostEvent), s.ready = true → s.pending = .access a :: rest →
    32 * s.regBlock ≤ a.addr → a.addr < 32 * s.regBlock + 32 →
    (a.width ≠ 8 → step s = .refused (.badWidth a.width)) ∧
    (a.width = 8 → (a.addr - 32 * s.regBlock) % 8 ≠ 0 → step s = .refused (.misaligned a.addr)) ∧
    (a.width = 8 → (a.addr - 32 * s.regBlock) % 8 = 0 → ∃ t, step s = .next t)

/-- The unit decodes no address outside its window (20_memory.md R47): an access none of whose bytes lies there stops by a named
fault. That it stops is the model's choice (log entry 3), and so is that no access wraps round into the window (log
entry 18). -/
def Obligations.AccessOutsideWindowFaults : Prop :=
  ∀ (s : State) (a : Access) (rest : List HostEvent), s.ready = true → s.pending = .access a :: rest → 0 < a.width →
    (a.addr + a.width ≤ 32 * s.regBlock ∨ 32 * s.regBlock + 32 ≤ a.addr) →
    step s = .fault (.outsideWindow a.addr)

/-- 20_memory.md R43: byte k of the register at offset off is bits [8*k+7 : 8*k] of what the register reads as. -/
def Obligations.WindowBytesAreLittleEndian : Prop :=
  ∀ (s : State) (off k : Nat) (v : Word), k < 8 →
    (off, v) ∈ [(0x00, 0), (0x08, s.din), (0x10, s.dout), (0x18, s.status.toWord)] →
    windowByte s (32 * s.regBlock + off + k) = some (v.extractLsb' (8 * k) 8)

/-! ## STATUS, DIN and DOUT over all steps -/

/-- 10_state.md R28: the fields of the word a read of STATUS returns, the reserved bits reading as 0. -/
def Obligations.StatusWordLayout : Prop :=
  ∀ s : State,
    (readReg .status s).getLsbD 0 = s.status.err ∧ (readReg .status s).getLsbD 1 = s.status.dvalid ∧
    (readReg .status s).extractLsb' 2 2 = 0 ∧ (readReg .status s).extractLsb' 4 4 = s.status.ecause ∧
    (readReg .status s).extractLsb' 8 56 = 0

/-- Only reset clears a field of STATUS (10_state.md R28, 60_exceptions.md R136): over every step that is no reset and no
loss of power, a set ERR stays set with its ECAUSE, and a set DVALID stays set. -/
def Obligations.StatusIsSticky : Prop :=
  ∀ s t : State, step s = .next t → (∀ o, s.pending.head? ≠ some (.reset o)) → s.pending.head? ≠ some .powerLoss →
    (s.status.err = true → t.status.err = true ∧ t.status.ecause = s.status.ecause) ∧
    (s.status.dvalid = true → t.status.dvalid = true)

/-- ERR is set by illegal commands alone (10_state.md R28, 60_exceptions.md R130, R133): if a step that is no loss of power
sets it, the step served a write to CMD of a word that decodes to no command. -/
def Obligations.OnlyIllegalCommandsSetErr : Prop :=
  ∀ s t : State, step s = .next t → s.pending.head? ≠ some .powerLoss → s.status.err = false → t.status.err = true →
    ∃ (c : Word) (cause : IllegalCause) (rest : List HostEvent),
      s.pending = .access ⟨32 * s.regBlock, 8, .write c⟩ :: rest ∧ decode c = .illegal cause

/-- DIN changes only by a host write to DIN, by reset, or by a loss of power: no command writes it (10_state.md R26). -/
def Obligations.OnlyHostWritesChangeDin : Prop :=
  ∀ s t : State, step s = .next t → t.din ≠ s.din →
    (∃ (v : Word) (rest : List HostEvent), s.pending = .access ⟨32 * s.regBlock + 0x08, 8, .write v⟩ :: rest ∧ t.din = v) ∨
    (∃ (o : Option Access) (rest : List HostEvent), s.pending = .reset o :: rest ∧ t.din = 0) ∨
    (∃ rest : List HostEvent, s.pending = .powerLoss :: rest)

/-- DOUT changes only by FINISH, DIFFUSE, UNDIFFUSE and TAILPACK, by reset, or by a loss of power (10_state.md R27); the four
commands also set DVALID. -/
def Obligations.OnlyResultCommandsChangeDout : Prop :=
  ∀ s t : State, step s = .next t → t.dout ≠ s.dout →
    (∃ (c : Word) (i : Instr) (rest : List HostEvent), s.pending = .access ⟨32 * s.regBlock, 8, .write c⟩ :: rest ∧
      decode c = .legal i ∧ (i = .finish ∨ i = .diffuse ∨ i = .undiffuse ∨ ∃ n, i = .tailpack n) ∧
      t.status.dvalid = true) ∨
    (∃ (o : Option Access) (rest : List HostEvent), s.pending = .reset o :: rest ∧ t.dout = 0) ∨
    (∃ rest : List HostEvent, s.pending = .powerLoss :: rest)

/-- The engine (LANE, LI, TOTAL, PB) changes only by INIT, WRITE, reset, or a loss of power (10_state.md R20, R21). -/
def Obligations.OnlyInitAndWriteChangeEngine : Prop :=
  ∀ s t : State, step s = .next t → ¬ SameEngine s t →
    (∃ (c : Word) (i : Instr) (rest : List HostEvent), s.pending = .access ⟨32 * s.regBlock, 8, .write c⟩ :: rest ∧
      decode c = .legal i ∧ (i = .init ∨ ∃ n, i = .write n)) ∨
    (∃ (o : Option Access) (rest : List HostEvent), s.pending = .reset o :: rest) ∨
    (∃ rest : List HostEvent, s.pending = .powerLoss :: rest)

/-- The host observes the hidden engine only through the digest (10_state.md R32): two units that look the same to the host still
do after any step that is no FINISH command, whatever their engines hold, and they stop or go on together. For a step that is
a loss of power this rests on the model's choice of what the free values depend on (log entry 5). -/
def Obligations.EngineIsHiddenUntilFinish : Prop :=
  ∀ s s' : State, SameToHost s s' →
    (∀ (c : Word) (rest : List HostEvent),
      s.pending = .access ⟨32 * s.regBlock, 8, .write c⟩ :: rest → decode c ≠ .legal .finish) →
    (∀ t, step s = .next t → ∃ t', step s' = .next t' ∧ SameToHost t t') ∧
    (∀ f, step s = .fault f → step s' = .fault f) ∧
    (∀ r, step s = .refused r → step s' = .refused r)

/-! ## The mixer and the diffusion commands -/

/-- 40_diffusion.md R80: DIFFUSE. Its word, and what the other words of its opcode are; its effect from every state, every other
element of the state unchanged; and the corner cases. -/
def Obligations.DiffuseCommand : Prop :=
  (encode .diffuse = 0x0000000000000004 ∧ decode 0x0000000000000004 = .legal .diffuse ∧
    ∀ c : Word, c.extractLsb' 0 4 = 4 → c ≠ 0x04 →
      decode c = .illegal (if c.extractLsb' 8 56 = 0 then .badLen else .reservedBits)) ∧
  (∀ (s : State) (x p a q : Word), x = s.din → p = 0x6eed0e9da4d94a4f * x → a = p >>> (32 : Nat) →
    q = p ^^^ (a >>> (p >>> (60 : Nat))) →
    exec .diffuse s = .next { s with
      dout := 0x6eed0e9da4d94a4f * q, status := ⟨s.status.err, true, s.status.ecause⟩ } ∧
    (p.extractLsb' 60 4 = 0 → q = p ^^^ a) ∧ (p >>> (60 : Nat)).toNat ≤ 15) ∧
  (∀ s : State, (s.din = 0 → ∃ t, exec .diffuse s = .next t ∧ t.dout = 0) ∧
    (s.din = 1 → ∃ t, exec .diffuse s = .next t ∧ t.dout = 15197155197312260123 ∧ t.dout = 0xd2e724224c47581b))

/-- 40_diffusion.md R81: UNDIFFUSE. Its word, and what the other words of its opcode are; its effect from every state, every other
element of the state unchanged; and the corner cases. -/
def Obligations.UndiffuseCommand : Prop :=
  (encode .undiffuse = 0x0000000000000005 ∧ decode 0x0000000000000005 = .legal .undiffuse ∧
    ∀ c : Word, c.extractLsb' 0 4 = 5 → c ≠ 0x05 →
      decode c = .illegal (if c.extractLsb' 8 56 = 0 then .badLen else .reservedBits)) ∧
  (∀ (s : State) (x p a q : Word), x = s.din → p = 0x2f72b4215a3d8caf * x → a = p >>> (32 : Nat) →
    q = p ^^^ (a >>> (p >>> (60 : Nat))) →
    exec .undiffuse s = .next { s with
      dout := 0x2f72b4215a3d8caf * q, status := ⟨s.status.err, true, s.status.ecause⟩ }) ∧
  (∀ s : State, (s.din = 0 → ∃ t, exec .undiffuse s = .next t ∧ t.dout = 0) ∧
    (∀ v : Word, s.din = diffuse v → ∃ t, exec .undiffuse s = .next t ∧ t.dout = v) ∧
    (s.din = 15197155197312260123 → ∃ t, exec .undiffuse s = .next t ∧ t.dout = 1))

/-- 40_diffusion.md R75, R78: the multiplier and the source's vectors of the mixer (95_test_vectors.md W1 to W4). The spec marks the
value of K as general knowledge (log entry 9). -/
def Obligations.MixerSourceVectors : Prop :=
  K = 0x6eed0e9da4d94a4f ∧ K = 7993060983890856527 ∧ K.getLsbD 0 = true ∧
  diffuse 0 = 0 ∧ diffuse 1 = 15197155197312260123 ∧ diffuse 2 = 1571904453004118546 ∧
  diffuse 94203824938 = 17289265692384716055

/-- 40_diffusion.md R76: K_INV is the unique 64-bit value whose product with K is 1 modulo 2^64. -/
def Obligations.InverseMultiplierIsUnique : Prop :=
  K * KInv = 1 ∧ KInv = 0x2f72b4215a3d8caf ∧ KInv = 3418993122468531375 ∧ ∀ x : Word, K * x = 1 → x = KInv

/-- 40_diffusion.md R82: the xor-shift step leaves bits 63:32 unchanged, its term is below 2^32, and it is an involution. -/
def Obligations.XorShiftIsInvolution : Prop :=
  ∀ x : Word,
    xorShift x = x ^^^ ((x >>> (32 : Nat)) >>> (x >>> (60 : Nat))) ∧
    (xorShift x).extractLsb' 32 32 = x.extractLsb' 32 32 ∧
    ((x >>> (32 : Nat)) >>> (x >>> (60 : Nat))).toNat < 2 ^ 32 ∧
    xorShift (xorShift x) = x

/-- 40_diffusion.md R83: diffuse and undiffuse are inverse to each other, and so both are bijections. -/
def Obligations.DiffuseAndUndiffuseAreInverse : Prop :=
  (∀ x : Word, undiffuse (diffuse x) = x ∧ diffuse (undiffuse x) = x) ∧
  Function.Bijective diffuse ∧ Function.Bijective undiffuse

/-- 40_diffusion.md R84: diffuse is not its own inverse, and both functions map 0 to 0. -/
def Obligations.DiffuseIsNotSelfInverse : Prop :=
  diffuse (diffuse 1) = 12480813483392000699 ∧ diffuse (diffuse 1) ≠ 1 ∧ diffuse 0 = 0 ∧ undiffuse 0 = 0

/-- DIFFUSE then copying DOUT to DIN then UNDIFFUSE gives the first operand back (95_test_vectors.md P3 lines 1 to 4, for
every operand), as a run of the unit over its register window. -/
def Obligations.DiffusionRoundTripOnUnit : Prop :=
  ∀ (s : State) (v : Word) (rest : List HostEvent), s.ready = true →
    s.pending = .access ⟨32 * s.regBlock + 0x08, 8, .write v⟩ :: .access ⟨32 * s.regBlock, 8, .write 0x04⟩ ::
      .access ⟨32 * s.regBlock + 0x08, 8, .write (diffuse v)⟩ :: .access ⟨32 * s.regBlock, 8, .write 0x05⟩ ::
      .access ⟨32 * s.regBlock + 0x10, 8, .read⟩ :: rest →
    ∃ t, Runs 5 s t ∧ t.readLog = v :: s.readLog ∧ SameEngine s t ∧ t.pending = rest

/-! ## The tail packer -/

/-- 41_tail_packer.md R91: TAILPACK n. Its words, and what the other words of its opcode are; its effect for every n of 0 to 7 from
every state, every other element of the state unchanged; and the corner cases. -/
def Obligations.TailpackCommand : Prop :=
  ((∀ n ≤ 7, decode (0x06 ||| (BitVec.ofNat 64 n <<< 4)) = .legal (.tailpack (BitVec.ofNat 4 n))) ∧
    ∀ c : Word, c.extractLsb' 0 4 = 6 →
      (c.extractLsb' 8 56 ≠ 0 → decode c = .illegal .reservedBits) ∧
      (c.extractLsb' 8 56 = 0 → 8 ≤ (c.extractLsb' 4 4).toNat → decode c = .illegal .badLen)) ∧
  (∀ (n : BitVec 4) (s : State) (bytes : List Byte), n.toNat ≤ 7 →
    bytes = (List.range n.toNat).map (fun i => s.din.extractLsb' (8 * i) 8) →
    exec (.tailpack n) s = .next { s with
      dout := tailpack bytes, status := ⟨s.status.err, true, s.status.ecause⟩ }) ∧
  (∀ s : State, ∃ t, exec (.tailpack 0) s = .next t ∧ t.dout = 0) ∧
  (∀ (n : BitVec 4) (s s' : State), n.toNat ≤ 7 → (∀ i < n.toNat, s.din.extractLsb' (8 * i) 8 = s'.din.extractLsb' (8 * i) 8) →
    ∃ t t', exec (.tailpack n) s = .next t ∧ exec (.tailpack n) s' = .next t' ∧ t.dout = t'.dout) ∧
  (∀ s : State, ∃ t, exec (.tailpack 7) s = .next t ∧ t.dout.extractLsb' 56 8 = 0) ∧
  (∀ s : State, s.din = 0x0000000000050203 → ∃ t, exec (.tailpack 3) s = .next t ∧ t.dout = 328195)

/-- 41_tail_packer.md R92: TAILPACK n computes DIN AND (2^(8*n) - 1). -/
def Obligations.TailpackMasksDin : Prop :=
  ∀ (n : BitVec 4) (s : State), n.toNat ≤ 7 →
    (∃ t, exec (.tailpack n) s = .next t ∧ t.dout = s.din &&& BitVec.ofNat 64 (2 ^ (8 * n.toNat) - 1)) ∧
    (n = 0 → ∃ t, exec (.tailpack n) s = .next t ∧ t.dout = 0) ∧
    (n = 7 → ∃ t, exec (.tailpack n) s = .next t ∧ t.dout = s.din &&& 0x00ffffffffffffff)

/-- 41_tail_packer.md R90: byte i of the sequence occupies bits [8i, 8i+8) of the word, and the bits above the sequence are 0. -/
def Obligations.TailpackPlacesBytes : Prop :=
  ∀ bytes : List Byte, bytes.length ≤ 7 →
    (∀ (i : Nat) (h : i < bytes.length), (tailpack bytes).extractLsb' (8 * i) 8 = bytes[i]) ∧
    (∀ j, 8 * bytes.length ≤ j → (tailpack bytes).getLsbD j = false) ∧
    (bytes = [] → tailpack bytes = 0)

/-- 41_tail_packer.md R94: for a fixed length n the packer is injective, and its values are exactly those below 2^(8*n);
sequences of different lengths can collide. -/
def Obligations.TailpackIsInjectivePerLength : Prop :=
  (∀ n ≤ 7,
    (∀ a b : List Byte, a.length = n → b.length = n → tailpack a = tailpack b → a = b) ∧
    (∀ v : Word, v.toNat < 2 ^ (8 * n) ↔ ∃ a : List Byte, a.length = n ∧ tailpack a = v)) ∧
  tailpack [] = tailpack [0]

/-! ## The streaming engine -/

/-- 42_stream_engine.md R100: INIT. Its word, and what the other words of its opcode are; its effect from every state, everything but the
engine unchanged; right after reset it changes nothing; and the digest after it. The seeds, and so the digest's value, are
marked as general knowledge by the spec (log entry 9). -/
def Obligations.InitCommand : Prop :=
  (encode .init = 0x0000000000000001 ∧ decode 0x0000000000000001 = .legal .init ∧
    ∀ c : Word, c.extractLsb' 0 4 = 1 → c ≠ 0x01 →
      decode c = .illegal (if c.extractLsb' 8 56 = 0 then .badLen else .reservedBits)) ∧
  (∀ s : State, exec .init s = .next { s with
    lanes := ⟨0x16f11fe89b0d677c, 0xb480a793d8e6c86c, 0x6fe2e5aaf078ebc9, 0x14f994a4c5259381⟩, li := 0, total := 0, pb := [] }) ∧
  exec .init State.reset = .next State.reset ∧
  (∀ s : State, ∃ t t', exec .init s = .next t ∧ exec .finish t = .next t' ∧ t'.dout = 14492805990617963705)

/-- 42_stream_engine.md R101 (with R102 to R104): WRITE n. Its words, and what the other words of its opcode are. Its effect for every
n of 0 to 8, from every state with at most 7 pending bytes: below 8 pending bytes they are only appended; otherwise exactly
one block is folded into lane LI, LI advances modulo 4, and the bytes left over are pending; TOTAL grows by n modulo 2^64,
and nothing else changes. The corner cases: n = 0 changes nothing; n = 8 on an empty buffer folds le64(DIN); higher byte
lanes are ignored; the rule's example, whose number rests on a seed the spec marks as general knowledge (log entry 9). -/
def Obligations.WriteCommand : Prop :=
  ((∀ n ≤ 8, decode (0x02 ||| (BitVec.ofNat 64 n <<< 4)) = .legal (.write (BitVec.ofNat 4 n))) ∧
    ∀ c : Word, c.extractLsb' 0 4 = 2 →
      (c.extractLsb' 8 56 ≠ 0 → decode c = .illegal .reservedBits) ∧
      (c.extractLsb' 8 56 = 0 → 9 ≤ (c.extractLsb' 4 4).toNat → decode c = .illegal .badLen)) ∧
  (∀ (n : BitVec 4) (s : State) (bytes : List Byte) (v : Word), n.toNat ≤ 8 → s.pb.length ≤ 7 →
    bytes = (List.range n.toNat).map (fun i => s.din.extractLsb' (8 * i) 8) →
    v = diffuse (s.lanes.get s.li ^^^ le64 ((s.pb ++ bytes).take 8)) →
    (s.pb.length + n.toNat < 8 → exec (.write n) s = .next { s with
      total := s.total + BitVec.ofNat 64 n.toNat, pb := s.pb ++ bytes }) ∧
    (8 ≤ s.pb.length + n.toNat → exec (.write n) s = .next { s with
      total := s.total + BitVec.ofNat 64 n.toNat
      lanes := ⟨if s.li = 0 then v else s.lanes.l0, if s.li = 1 then v else s.lanes.l1,
        if s.li = 2 then v else s.lanes.l2, if s.li = 3 then v else s.lanes.l3⟩
      li := s.li + 1
      pb := (s.pb ++ bytes).drop 8 })) ∧
  (∀ s : State, exec (.write 0) s = .next s) ∧
  (∀ s : State, s.pb = [] → exec (.write 8) s = .next { s with
      total := s.total + 8, lanes := s.lanes.set s.li (diffuse (s.lanes.get s.li ^^^ s.din)), li := s.li + 1 }) ∧
  (∀ (n : BitVec 4) (s : State) (d : Word), n.toNat ≤ 8 →
    (∀ i < n.toNat, s.din.extractLsb' (8 * i) 8 = d.extractLsb' (8 * i) 8) →
    ∃ t t', exec (.write n) s = .next t ∧ exec (.write n) { s with din := d } = .next t' ∧ SameEngine t t') ∧
  (∀ s t : State, exec .init s = .next t → ∃ u, exec (.write 8) { t with din := 0x0807060504030201 } = .next u ∧
    u.lanes.l0 = diffuse (seed0 ^^^ 0x0807060504030201) ∧ u.lanes.l0 = 0x15262774b40481c4 ∧ u.li = 1 ∧ u.total = 8 ∧
    u.pbc = 0)

/-- A command whose LEN no legal word has (WRITE with LEN of 9 to 15, TAILPACK with LEN of 8 to 15; 30_encoding.md R60) records, when
`exec` is given it, cause BAD_LEN (code 3), and changes nothing else. The decoder never hands `exec` such a command, and that
`exec` answers so is the model's choice (log entry 8): the spec speaks only of the word, to which 60_exceptions.md R131 gives
this cause. -/
def Obligations.IllegalLenRecordsBadLen : Prop :=
  ∀ (s : State) (n : BitVec 4),
    (8 < n.toNat → exec (.write n) s = .next { s with
      status := ⟨true, s.status.dvalid, if s.status.err then s.status.ecause else 3⟩ }) ∧
    (7 < n.toNat → exec (.tailpack n) s = .next { s with
      status := ⟨true, s.status.dvalid, if s.status.err then s.status.ecause else 3⟩ })

/-- 10_state.md R23: TOTAL grows by n modulo 2^64. -/
def Obligations.TotalCountsModulo : Prop :=
  ∀ (n : BitVec 4) (s : State), n.toNat ≤ 8 →
    ∃ t, exec (.write n) s = .next t ∧ t.total.toNat = (s.total.toNat + n.toNat) % 2 ^ 64

/-- 42_stream_engine.md R103: a fold changes the lane LI selects and no other, and advances LI modulo 4. -/
def Obligations.FoldUpdatesOneLane : Prop :=
  ∀ (v : Word) (s : State),
    (fold v s).lanes.get s.li = diffuse (s.lanes.get s.li ^^^ v) ∧
    (∀ j : Fin 4, j ≠ s.li → (fold v s).lanes.get j = s.lanes.get j) ∧
    (fold v s).li.val = (s.li.val + 1) % 4 ∧
    fold v s = { s with lanes := (fold v s).lanes, li := (fold v s).li }

/-- 42_stream_engine.md R105: FINISH. Its word, and what the other words of its opcode are; its effect from every state: the digest of a
copy of the lanes, with the tail folded in if any byte is pending, everything but DOUT and DVALID unchanged; a pending tail of
zero bytes still folds; and the rule's example. -/
def Obligations.FinishCommand : Prop :=
  (encode .finish = 0x0000000000000003 ∧ decode 0x0000000000000003 = .legal .finish ∧
    ∀ c : Word, c.extractLsb' 0 4 = 3 → c ≠ 0x03 →
      decode c = .illegal (if c.extractLsb' 8 56 = 0 then .badLen else .reservedBits)) ∧
  (∀ (s : State) (T : Lanes),
    (s.pb.length = 0 → T = s.lanes) →
    (0 < s.pb.length → T = s.lanes.set s.li (diffuse (s.lanes.get s.li ^^^ tailpack s.pb))) →
    exec .finish s = .next { s with
      dout := diffuse (T.l0 ^^^ T.l1 ^^^ T.l2 ^^^ T.l3 ^^^ s.total), status := ⟨s.status.err, true, s.status.ecause⟩ }) ∧
  (∀ s : State, s.pb = [0] → s.li = 0 → ∃ t, exec .finish s = .next t ∧
    t.dout = diffuse (diffuse s.lanes.l0 ^^^ s.lanes.l1 ^^^ s.lanes.l2 ^^^ s.lanes.l3 ^^^ s.total)) ∧
  (∀ s : State, ∃ t u v, exec .init s = .next t ∧ exec (.write 1) { t with din := 0x00 } = .next u ∧
    exec .finish u = .next v ∧ v.dout = oneShotHash [0x00])

/-- 42_stream_engine.md R106: FINISH does not change the engine's state. Two FINISH commands with no WRITE or INIT between them (whatever
else the host writes to CMD and DIN there) write the same DOUT; and a FINISH followed by any commands and another FINISH
gives the DOUT the last would give had the first not run. -/
def Obligations.FinishIsRepeatable : Prop :=
  (∀ s : State, ∃ t, exec .finish s = .next t ∧ SameEngine s t) ∧
  (∀ (s u : State) (rest : List HostEvent), s.ready = true → s.pending = .access ⟨32 * s.regBlock, 8, .write 0x03⟩ :: rest →
    (∀ e ∈ rest, CommandOrDinWrite s (fun c => decode c ≠ .legal .init ∧ ∀ n, decode c ≠ .legal (.write n)) e) →
    Completes s u → ∃ t t', exec .finish s = .next t ∧ exec .finish u = .next t' ∧ t'.dout = t.dout) ∧
  (∀ (s u : State) (rest : List HostEvent), s.ready = true → s.pending = .access ⟨32 * s.regBlock, 8, .write 0x03⟩ :: rest →
    (∀ e ∈ rest, CommandOrDinWrite s (fun _ => True) e) →
    Completes { s with pending := rest } u →
    ∃ u', Completes s u' ∧ SameEngine u u' ∧
      ∃ t t', exec .finish u = .next t ∧ exec .finish u' = .next t' ∧ t.dout = t'.dout)

/-- 42_stream_engine.md R109: the digest of the empty input. The value rests on the seeds, which the spec itself marks as general
knowledge (log entry 9). -/
def Obligations.EmptyDigest : Prop :=
  oneShotHash [] = diffuse (seed0 ^^^ seed1 ^^^ seed2 ^^^ seed3 ^^^ 0) ∧
  seed0 ^^^ seed1 ^^^ seed2 ^^^ seed3 ^^^ (0 : Word) = 0xd96ac97576b6d758 ∧
  oneShotHash [] = 14492805990617963705 ∧ oneShotHash [] = 0xc920ca43256fdcb9

/-- 42_stream_engine.md R114, 10_state.md R23: for an input of any length, 2^64 bytes and more included, FINISH mixes in len(S) mod 2^64
while the lanes hold the folds of all the blocks. -/
def Obligations.DigestMixesLengthModulo : Prop :=
  ∀ (S : List Byte) (s : State), EngineHolds S s →
    ∃ t, exec .finish s = .next t ∧
      t.dout = diffuse ((hashLanes S).l0 ^^^ (hashLanes S).l1 ^^^ (hashLanes S).l2 ^^^ (hashLanes S).l3 ^^^
        BitVec.ofNat 64 (S.length % 2 ^ 64))

/-- 42_stream_engine.md R108: in `hash` and in the engine, the j-th full block goes to lane j mod 4, so lane k is its seed with the
blocks j = k mod 4 folded in, in order; a non-empty tail goes to lane floor(N/8) mod 4. -/
def Obligations.BlocksGoRoundRobin : Prop :=
  ∀ (S : List Byte) (lane : Fin 4 → Word),
    (∀ k : Fin 4, lane k = ((List.range (S.length / 8)).filter (fun j => j % 4 = k.val)).foldl
      (fun acc j => diffuse (acc ^^^ le64 (slice S (8 * j) (8 * j + 8)))) (seedLanes.get k)) →
    (∀ k : Fin 4, (hashBlocks S).1.get k = lane k) ∧
    (∀ (s : State) (k : Fin 4), EngineHolds S s → s.lanes.get k = lane k ∧ s.li.val = S.length / 8 % 4) ∧
    (S.length % 8 ≠ 0 → ∀ k : Fin 4, (hashLanes S).get k =
      if k.val = S.length / 8 % 4 then diffuse (lane k ^^^ tailpack (slice S (8 * (S.length / 8)) S.length)) else lane k)

/-! ## Every command -/

/-- From 60_exceptions.md R130: no legal command raises an error (that the arithmetic wraps, which R130 says too, is in
DiffuseCommand, UndiffuseCommand and TotalCountsModulo). Every command with a legal LEN completes, from every state and
every DIN, and leaves ERR and ECAUSE as they were. -/
def Obligations.LegalCommandsNeverFail : Prop :=
  ∀ (i : Instr) (s : State), i.WellFormed →
    ∃ t, exec i s = .next t ∧ t.status.err = s.status.err ∧ t.status.ecause = s.status.ecause

/-- What every command leaves unchanged: DIN and all that is outside the unit; the bytes of the window but DOUT and STATUS,
and for INIT and legal WRITEs every byte of the window; for the other commands the engine. -/
def Obligations.CommandFrames : Prop :=
  ∀ (i : Instr) (s t : State), exec i s = .next t →
    t.din = s.din ∧ t.ready = s.ready ∧ t.powerLosses = s.powerLosses ∧ t.regBlock = s.regBlock ∧
    t.pending = s.pending ∧ t.readLog = s.readLog ∧
    (∀ addr, ¬ (32 * s.regBlock + 0x10 ≤ addr ∧ addr < 32 * s.regBlock + 0x20) → windowByte t addr = windowByte s addr) ∧
    (i.WellFormed → (i = .init ∨ ∃ n, i = .write n) → ∀ addr, windowByte t addr = windowByte s addr) ∧
    (i = .finish ∨ i = .diffuse ∨ i = .undiffuse ∨ (∃ n, i = .tailpack n) → SameEngine s t)

/-! ## Headline results -/

/-- Every step keeps the model's invariant: the pending buffer holds at most 7 bytes, PBC = TOTAL mod 8,
LI = (TOTAL >> 3) mod 4 (10_state.md R24, R25), and ECAUSE is legal (R28). -/
def Obligations.StepKeepsInvariant : Prop := ∀ s t : State, Inv s → step s = .next t → Inv t

/-- The engine always holds exactly the bytes accepted since the last INIT or reset (10_state.md R24, R25; 42_stream_engine.md R110): if the
engine of a unit that has been reset holds S, then after any step it holds what `acceptedAfter` says, until a loss of power. -/
def Obligations.StepKeepsEngineExact : Prop :=
  ∀ (S : List Byte) (s t : State) (e : HostEvent) (rest : List HostEvent),
    (s.ready = true → EngineHolds S s) → s.pending = e :: rest → step s = .next t →
    t.ready = true → EngineHolds (acceptedAfter S s e) t

/-- 42_stream_engine.md R110: streaming equals one-shot. From a unit fresh from reset or INIT, take any host events at all
without a loss of power (any commands, legal or not, in any order, any other accesses, resets and INITs among them); if
they all complete and fewer than 2^64 bytes were accepted since the last INIT or reset, a FINISH then gives the one-shot
hash of exactly those bytes. -/
def Obligations.StreamingEqualsOneShot : Prop :=
  ∀ (s t : State) (S : List Byte), s.ready = true → SameEngine s State.reset → (∀ e ∈ s.pending, e ≠ .powerLoss) →
    Completes s t → S = acceptedAlong s.pending.length [] s → S.length < 2 ^ 64 →
    ∃ u, exec .finish t = .next u ∧ u.dout = oneShotHash S

/-- 42_stream_engine.md R111: chunking invariance. Two sequences of WRITE commands that accept the same bytes leave the same engine
state, however the bytes are split, zero-length WRITEs included; so from a fresh engine, FINISH after any partition of S gives
`hash(S)`. -/
def Obligations.ChunkingIsInvisible : Prop :=
  ∀ (s : State) (chunks chunks' : List (List Byte)), chunks.flatten = chunks'.flatten →
    (∀ c ∈ chunks, c.length ≤ 8) → (∀ c ∈ chunks', c.length ≤ 8) →
    ∃ t t', writeChunks chunks s = some t ∧ writeChunks chunks' s = some t' ∧ SameEngine t t' ∧
      (SameEngine s State.reset → chunks.flatten.length < 2 ^ 64 →
        ∃ u, exec .finish t = .next u ∧ u.dout = oneShotHash chunks.flatten)

/-- 42_stream_engine.md R112: `hash s` assembles to `init ; absorb s ; finish`, and from every state of a unit that has been reset,
whatever its engine holds, after those accesses DOUT is the one-shot hash of s (for lengths below 2^64), and DVALID is set. -/
def Obligations.HashSequenceComputesHash : Prop :=
  ∀ (s : State) (bytes : List Byte) (events : List HostEvent), s.ready = true → bytes.length < 2 ^ 64 →
    assemble s (Pseudo.hash bytes).expand = some events →
    ∃ t, Completes { s with pending := events } t ∧ t.dout = oneShotHash bytes ∧ t.status.dvalid = true ∧
      t.status.err = s.status.err

/-- The pseudo-instruction `absorb` never assembles to a rejected line, and accepts exactly its bytes (30_encoding.md R68). -/
def Obligations.AbsorbAcceptsItsBytes : Prop :=
  ∀ (s : State) (S bytes : List Byte), s.ready = true → EngineHolds S s →
    ∃ events t, assemble s (Pseudo.absorb bytes).expand = some events ∧ Completes { s with pending := events } t ∧
      acceptedAlong events.length S { s with pending := events } = S ++ bytes ∧ EngineHolds (S ++ bytes) t

/-! ## Several instances, several hosts -/

/-- Instances share no state (10_state.md R34, 60_exceptions.md R143): when instance k serves an event, every other instance is as
before. -/
def Obligations.InstancesShareNothing : Prop :=
  ∀ (p q : Platform) (k : Nat), Platform.stepUnit p k = some (.next q) →
    q.length = p.length ∧ (∀ j, j ≠ k → q[j]? = p[j]?) ∧
    ∃ s s', p[k]? = some s ∧ q[k]? = some s' ∧ step s = .next s'

/-- 20_memory.md R50: with two hosts on one unit, one host's DIN write and its following CMD write may be separated by the
other's DIN write; the command then uses the value written last. -/
def Obligations.HostsMayInterleave : Prop :=
  ∀ (s : State) (v w : Word) (d c d' : Access), s.ready = true →
    d = ⟨32 * s.regBlock + 0x08, 8, .write v⟩ → c = ⟨32 * s.regBlock, 8, .write 0x04⟩ →
    d' = ⟨32 * s.regBlock + 0x08, 8, .write w⟩ →
    (Interleaves [[d, c], [d']] [d, d', c] ∧
      ∃ t, Completes { s with pending := [.access d, .access d', .access c] } t ∧ t.dout = diffuse w) ∧
    (Interleaves [[d, c], [d']] [d', d, c] ∧
      ∃ t, Completes { s with pending := [.access d', .access d, .access c] } t ∧ t.dout = diffuse v)
end

