-- ==== Sys2Proof/Laws/Bytes.lean ====
section
/-! SUPPORT. What `le64` and the byte lanes do, bit by bit. -/

namespace Sys2Proof.Machine

@[simp] theorem byteLanes_length (n : Nat) (v : Word) : (byteLanes n v).length = n := by
  simp [byteLanes]

@[simp] theorem byteLanes_zero (v : Word) : byteLanes 0 v = [] := rfl

theorem byteLane_getLsbD (v : Word) (i j : Nat) : (byteLane v i).getLsbD j = (decide (j < 8) && v.getLsbD (8 * i + j)) := by
  simp [byteLane]

/-- Bit j of the word: bit `(j - 8k) % 8` of byte `(j - 8k) / 8`. -/
theorem le64At_getLsbD (k : Nat) (s : List Byte) (j : Nat) :
    (le64At k s).getLsbD j
      = (decide (j < 64) && decide (8 * k ≤ j) && ((s[(j - 8 * k) / 8]?).getD 0).getLsbD ((j - 8 * k) % 8)) := by
  induction s generalizing k with
  | nil => simp [le64At]
  | cons b s ih =>
    simp only [le64At, BitVec.getLsbD_or, BitVec.getLsbD_shiftLeft, BitVec.getLsbD_setWidth, ih]
    by_cases h64 : j < 64
    · by_cases hlo : j < 8 * k
      · have : ¬ 8 * (k + 1) ≤ j := by omega
        have : ¬ 8 * k ≤ j := by omega
        simp [*]
      · by_cases hin : j < 8 * (k + 1)
        · have e1 : (j - 8 * k) / 8 = 0 := by omega
          have e2 : (j - 8 * k) % 8 = j - 8 * k := by omega
          have e3 : ¬ 8 * (k + 1) ≤ j := by omega
          have e4 : 8 * k ≤ j := by omega
          have e5 : j - 8 * k < 64 := by omega
          simp [h64, hlo, e1, e2, e3, e4, e5]
        · have e1 : (j - 8 * k) / 8 = (j - 8 * (k + 1)) / 8 + 1 := by omega
          have e2 : (j - 8 * k) % 8 = (j - 8 * (k + 1)) % 8 := by omega
          have e3 : 8 * (k + 1) ≤ j := by omega
          have e4 : 8 * k ≤ j := by omega
          have e5 : b.getLsbD (j - 8 * k) = false := BitVec.getLsbD_of_ge _ _ (by omega)
          rw [e1, e2]
          simp [h64, e3, e4, e5]
    · have hh : ¬ j < 64 := h64
      simp [hh]

theorem le64_getLsbD (s : List Byte) (j : Nat) :
    (le64 s).getLsbD j = (decide (j < 64) && ((s[j / 8]?).getD 0).getLsbD (j % 8)) := by
  simp [le64, le64At_getLsbD]

@[simp] theorem le64_nil : le64 [] = 0 := rfl

/-- Packing the byte lanes of a word keeps its low 8*n bits and clears the rest. -/
theorem le64_byteLanes_getLsbD (n : Nat) (v : Word) (j : Nat) :
    (le64 (byteLanes n v)).getLsbD j = (decide (j < 8 * n) && v.getLsbD j) := by
  rw [le64_getLsbD]
  by_cases h64 : j < 64
  · by_cases hn : j < 8 * n
    · have e1 : j / 8 < n := by omega
      have e2 : j % 8 < 8 := by omega
      have e3 : 8 * (j / 8) + j % 8 = j := by omega
      have hb : (byteLanes n v)[j / 8]? = some (byteLane v (j / 8)) := by simp [byteLanes, e1]
      rw [hb, Option.getD_some, byteLane_getLsbD, e3]
      simp only [h64, hn, e2, decide_true, Bool.true_and]
    · have e1 : ¬ j / 8 < n := by omega
      have e2 : n ≤ j / 8 := by omega
      simp [byteLanes, e2, hn]
  · have : v.getLsbD j = false := BitVec.getLsbD_of_ge _ _ (by omega)
    simp [h64, this]

theorem le64_byteLanes_eight (v : Word) : le64 (byteLanes 8 v) = v := by
  apply BitVec.eq_of_getLsbD_eq
  intro j hj
  rw [le64_byteLanes_getLsbD]
  simp [show j < 8 * 8 by omega]

/-- The byte lanes of a packed sequence are the sequence. -/
theorem byteLanes_le64 (s : List Byte) (h : s.length ≤ 8) : byteLanes s.length (le64 s) = s := by
  apply List.ext_getElem (by simp)
  intro i h1 h2
  apply BitVec.eq_of_getLsbD_eq
  intro j hj
  simp only [byteLanes, List.getElem_map, List.getElem_range, byteLane_getLsbD, le64_getLsbD]
  have e1 : (8 * i + j) / 8 = i := by omega
  have e2 : (8 * i + j) % 8 = j := by omega
  have e3 : 8 * i + j < 64 := by omega
  simp [e1, e2, e3, hj, List.getElem?_eq_getElem h2]

end Sys2Proof.Machine
end

