-- ==== Sys2Proof/Laws/Decode.lean ====
section
/-! SUPPORT. A command word is its three fields, and what a word's decoding says of them. -/

namespace Sys2Proof

/-- Two words with the same OP, LEN and RSV are the same word. -/
theorem word_ext_fields (c d : Word) (ho : opField c = opField d) (hl : lenField c = lenField d)
    (hr : rsvField c = rsvField d) : c = d := by
  apply BitVec.eq_of_getLsbD_eq
  intro j hj
  have fo := congrArg (fun x => x.getLsbD j) ho
  have fl := congrArg (fun x => x.getLsbD (j - 4)) hl
  have fr := congrArg (fun x => x.getLsbD (j - 8)) hr
  simp only [opField, lenField, rsvField, BitVec.getLsbD_extractLsb'] at fo fl fr
  by_cases h4 : j < 4
  · simpa [h4] using fo
  · by_cases h8 : j < 8
    · have e : 4 + (j - 4) = j := by omega
      simpa only [e, show j - 4 < 4 by omega, decide_true, Bool.true_and] using fl
    · have e : 8 + (j - 8) = j := by omega
      simpa only [e, show j - 8 < 56 by omega, decide_true, Bool.true_and] using fr

/-- What it means that a word decodes to a command: OP names it with LEN as its operand, RSV is 0, and LEN is legal. -/
theorem decode_legal_iff (c : Word) (i : Instr) :
    decode c = .legal i ↔ commandOf (opField c) (lenField c) = some i ∧ rsvField c = 0 ∧ lenLegal i (lenField c) = true := by
  unfold decode
  cases h : commandOf (opField c) (lenField c) with
  | none => simp
  | some k =>
    by_cases hr : rsvField c = 0
    · by_cases hl : lenLegal k (lenField c) = true
      · simp only [hr, hl, ne_eq, not_true_eq_false, if_false, if_true, Decoded.legal.injEq, Option.some.injEq, true_and]
        exact ⟨fun e => ⟨e, e ▸ hl⟩, fun e => e.1⟩
      · simp only [hr, hl, ne_eq, not_true_eq_false, if_false, Option.some.injEq, true_and]
        exact ⟨fun e => by simp at e, fun e => absurd (e.1 ▸ e.2) hl⟩
    · simp only [hr, ne_eq, not_false_eq_true, if_true, false_and, and_false, reduceCtorEq]

/-- A named opcode and operand are those of the command. -/
theorem commandOf_opcode (i : Instr) : commandOf (opcode i) (lenOperand i) = some i := by cases i <;> rfl

/-- Legality of LEN is well-formedness of the command (R60). -/
theorem lenLegal_lenOperand (i : Instr) : lenLegal i (lenOperand i) = i.wf := by cases i <;> rfl

/-- From a named opcode: the opcode and the operand of the command. -/
theorem opcode_of_commandOf (op len : BitVec 4) (i : Instr) (h : commandOf op len = some i) :
    op = opcode i ∧ (lenLegal i len = true → len = lenOperand i) := by
  have hop : op = BitVec.ofNat 4 op.toNat := by simp
  unfold commandOf at h
  split at h <;> first
    | (rename_i e; rw [e] at hop; cases h; refine ⟨hop, fun hl => ?_⟩; first | rfl | exact eq_of_beq hl)
    | cases h

end Sys2Proof
end

