-- ==== Sys2Proof/Laws/State.lean ====
section
/-! SUPPORT. One lemma per field of State per named update, so that no proof unfolds a record update. -/

namespace Sys2Proof.Machine

/-! ## fold -/

@[simp] theorem fold_lanes (v : Word) (s : State) : (fold v s).lanes = s.lanes.mix s.li v := rfl
@[simp] theorem fold_li (v : Word) (s : State) : (fold v s).li = s.li + 1 := rfl
@[simp] theorem fold_total (v : Word) (s : State) : (fold v s).total = s.total := rfl
@[simp] theorem fold_pb (v : Word) (s : State) : (fold v s).pb = s.pb := rfl
@[simp] theorem fold_din (v : Word) (s : State) : (fold v s).din = s.din := rfl
@[simp] theorem fold_dout (v : Word) (s : State) : (fold v s).dout = s.dout := rfl
@[simp] theorem fold_status (v : Word) (s : State) : (fold v s).status = s.status := rfl
@[simp] theorem fold_ready (v : Word) (s : State) : (fold v s).ready = s.ready := rfl
@[simp] theorem fold_powerLosses (v : Word) (s : State) : (fold v s).powerLosses = s.powerLosses := rfl
@[simp] theorem fold_regBlock (v : Word) (s : State) : (fold v s).regBlock = s.regBlock := rfl
@[simp] theorem fold_pending (v : Word) (s : State) : (fold v s).pending = s.pending := rfl
@[simp] theorem fold_readLog (v : Word) (s : State) : (fold v s).readLog = s.readLog := rfl

/-! ## initEngine -/

@[simp] theorem initEngine_lanes (s : State) : (initEngine s).lanes = seedLanes := rfl
@[simp] theorem initEngine_li (s : State) : (initEngine s).li = 0 := rfl
@[simp] theorem initEngine_total (s : State) : (initEngine s).total = 0 := rfl
@[simp] theorem initEngine_pb (s : State) : (initEngine s).pb = [] := rfl
@[simp] theorem initEngine_din (s : State) : (initEngine s).din = s.din := rfl
@[simp] theorem initEngine_dout (s : State) : (initEngine s).dout = s.dout := rfl
@[simp] theorem initEngine_status (s : State) : (initEngine s).status = s.status := rfl
@[simp] theorem initEngine_ready (s : State) : (initEngine s).ready = s.ready := rfl
@[simp] theorem initEngine_powerLosses (s : State) : (initEngine s).powerLosses = s.powerLosses := rfl
@[simp] theorem initEngine_regBlock (s : State) : (initEngine s).regBlock = s.regBlock := rfl
@[simp] theorem initEngine_pending (s : State) : (initEngine s).pending = s.pending := rfl
@[simp] theorem initEngine_readLog (s : State) : (initEngine s).readLog = s.readLog := rfl

/-! ## writeResult -/

@[simp] theorem writeResult_lanes (v : Word) (s : State) : (writeResult v s).lanes = s.lanes := rfl
@[simp] theorem writeResult_li (v : Word) (s : State) : (writeResult v s).li = s.li := rfl
@[simp] theorem writeResult_total (v : Word) (s : State) : (writeResult v s).total = s.total := rfl
@[simp] theorem writeResult_pb (v : Word) (s : State) : (writeResult v s).pb = s.pb := rfl
@[simp] theorem writeResult_din (v : Word) (s : State) : (writeResult v s).din = s.din := rfl
@[simp] theorem writeResult_dout (v : Word) (s : State) : (writeResult v s).dout = v := rfl
@[simp] theorem writeResult_status (v : Word) (s : State) : (writeResult v s).status = s.status.setValid := rfl
@[simp] theorem writeResult_ready (v : Word) (s : State) : (writeResult v s).ready = s.ready := rfl
@[simp] theorem writeResult_powerLosses (v : Word) (s : State) : (writeResult v s).powerLosses = s.powerLosses := rfl
@[simp] theorem writeResult_regBlock (v : Word) (s : State) : (writeResult v s).regBlock = s.regBlock := rfl
@[simp] theorem writeResult_pending (v : Word) (s : State) : (writeResult v s).pending = s.pending := rfl
@[simp] theorem writeResult_readLog (v : Word) (s : State) : (writeResult v s).readLog = s.readLog := rfl

/-! ## raiseIllegal -/

@[simp] theorem raiseIllegal_lanes (c : IllegalCause) (s : State) : (raiseIllegal c s).lanes = s.lanes := rfl
@[simp] theorem raiseIllegal_li (c : IllegalCause) (s : State) : (raiseIllegal c s).li = s.li := rfl
@[simp] theorem raiseIllegal_total (c : IllegalCause) (s : State) : (raiseIllegal c s).total = s.total := rfl
@[simp] theorem raiseIllegal_pb (c : IllegalCause) (s : State) : (raiseIllegal c s).pb = s.pb := rfl
@[simp] theorem raiseIllegal_din (c : IllegalCause) (s : State) : (raiseIllegal c s).din = s.din := rfl
@[simp] theorem raiseIllegal_dout (c : IllegalCause) (s : State) : (raiseIllegal c s).dout = s.dout := rfl
@[simp] theorem raiseIllegal_status (c : IllegalCause) (s : State) : (raiseIllegal c s).status = s.status.recordIllegal c := rfl
@[simp] theorem raiseIllegal_ready (c : IllegalCause) (s : State) : (raiseIllegal c s).ready = s.ready := rfl
@[simp] theorem raiseIllegal_powerLosses (c : IllegalCause) (s : State) : (raiseIllegal c s).powerLosses = s.powerLosses := rfl
@[simp] theorem raiseIllegal_regBlock (c : IllegalCause) (s : State) : (raiseIllegal c s).regBlock = s.regBlock := rfl
@[simp] theorem raiseIllegal_pending (c : IllegalCause) (s : State) : (raiseIllegal c s).pending = s.pending := rfl
@[simp] theorem raiseIllegal_readLog (c : IllegalCause) (s : State) : (raiseIllegal c s).readLog = s.readLog := rfl

/-! ## resetUnit -/

@[simp] theorem resetUnit_lanes (s : State) : (resetUnit s).lanes = seedLanes := rfl
@[simp] theorem resetUnit_li (s : State) : (resetUnit s).li = 0 := rfl
@[simp] theorem resetUnit_total (s : State) : (resetUnit s).total = 0 := rfl
@[simp] theorem resetUnit_pb (s : State) : (resetUnit s).pb = [] := rfl
@[simp] theorem resetUnit_din (s : State) : (resetUnit s).din = 0 := rfl
@[simp] theorem resetUnit_dout (s : State) : (resetUnit s).dout = 0 := rfl
@[simp] theorem resetUnit_status (s : State) : (resetUnit s).status = clearStatus := rfl
@[simp] theorem resetUnit_ready (s : State) : (resetUnit s).ready = true := rfl
@[simp] theorem resetUnit_powerLosses (s : State) : (resetUnit s).powerLosses = s.powerLosses := rfl
@[simp] theorem resetUnit_regBlock (s : State) : (resetUnit s).regBlock = s.regBlock := rfl
@[simp] theorem resetUnit_pending (s : State) : (resetUnit s).pending = s.pending := rfl
@[simp] theorem resetUnit_readLog (s : State) : (resetUnit s).readLog = s.readLog := rfl

/-! ## logRead -/

@[simp] theorem logRead_lanes (v : Word) (s : State) : (logRead v s).lanes = s.lanes := rfl
@[simp] theorem logRead_li (v : Word) (s : State) : (logRead v s).li = s.li := rfl
@[simp] theorem logRead_total (v : Word) (s : State) : (logRead v s).total = s.total := rfl
@[simp] theorem logRead_pb (v : Word) (s : State) : (logRead v s).pb = s.pb := rfl
@[simp] theorem logRead_din (v : Word) (s : State) : (logRead v s).din = s.din := rfl
@[simp] theorem logRead_dout (v : Word) (s : State) : (logRead v s).dout = s.dout := rfl
@[simp] theorem logRead_status (v : Word) (s : State) : (logRead v s).status = s.status := rfl
@[simp] theorem logRead_ready (v : Word) (s : State) : (logRead v s).ready = s.ready := rfl
@[simp] theorem logRead_powerLosses (v : Word) (s : State) : (logRead v s).powerLosses = s.powerLosses := rfl
@[simp] theorem logRead_regBlock (v : Word) (s : State) : (logRead v s).regBlock = s.regBlock := rfl
@[simp] theorem logRead_pending (v : Word) (s : State) : (logRead v s).pending = s.pending := rfl
@[simp] theorem logRead_readLog (v : Word) (s : State) : (logRead v s).readLog = v :: s.readLog := rfl

/-! ## losePower: what it leaves -/

@[simp] theorem losePower_ready (s : State) : (losePower s).ready = false := rfl
@[simp] theorem losePower_powerLosses (s : State) : (losePower s).powerLosses = s.powerLosses + 1 := rfl
@[simp] theorem losePower_regBlock (s : State) : (losePower s).regBlock = s.regBlock := rfl
@[simp] theorem losePower_pending (s : State) : (losePower s).pending = s.pending := rfl
@[simp] theorem losePower_readLog (s : State) : (losePower s).readLog = s.readLog := rfl

/-! ## STATUS -/

@[simp] theorem setValid_err (st : Status) : st.setValid.err = st.err := rfl
@[simp] theorem setValid_dvalid (st : Status) : st.setValid.dvalid = true := rfl
@[simp] theorem setValid_ecause (st : Status) : st.setValid.ecause = st.ecause := rfl
@[simp] theorem recordIllegal_err (c : IllegalCause) (st : Status) : (st.recordIllegal c).err = true := rfl
@[simp] theorem recordIllegal_dvalid (c : IllegalCause) (st : Status) : (st.recordIllegal c).dvalid = st.dvalid := rfl
@[simp] theorem recordIllegal_ecause (c : IllegalCause) (st : Status) :
    (st.recordIllegal c).ecause = if st.err then st.ecause else causeCode c := rfl

/-! ## The accumulator file -/

@[simp] theorem lanes_get_set_same (l : Lanes) (i : Fin 4) (v : Word) : (l.set i v).get i = v := by
  fin_cases i <;> rfl

theorem lanes_get_set_other (l : Lanes) (i j : Fin 4) (v : Word) (h : j ≠ i) : (l.set i v).get j = l.get j := by
  fin_cases i <;> fin_cases j <;> first | rfl | exact absurd rfl h

theorem lanes_ext_get (a b : Lanes) (h : ∀ k, a.get k = b.get k) : a = b := by
  cases a; cases b
  have h0 := h 0; have h1 := h 1; have h2 := h 2; have h3 := h 3
  simp only [Lanes.get] at h0 h1 h2 h3
  subst h0 h1 h2 h3; rfl

/-! ## absorbByte and absorb: what they leave -/

@[simp] theorem absorbByte_total (s : State) (b : Byte) : (absorbByte s b).total = s.total := by
  unfold absorbByte; split <;> rfl
@[simp] theorem absorbByte_din (s : State) (b : Byte) : (absorbByte s b).din = s.din := by
  unfold absorbByte; split <;> rfl
@[simp] theorem absorbByte_dout (s : State) (b : Byte) : (absorbByte s b).dout = s.dout := by
  unfold absorbByte; split <;> rfl
@[simp] theorem absorbByte_status (s : State) (b : Byte) : (absorbByte s b).status = s.status := by
  unfold absorbByte; split <;> rfl
@[simp] theorem absorbByte_ready (s : State) (b : Byte) : (absorbByte s b).ready = s.ready := by
  unfold absorbByte; split <;> rfl
@[simp] theorem absorbByte_powerLosses (s : State) (b : Byte) : (absorbByte s b).powerLosses = s.powerLosses := by
  unfold absorbByte; split <;> rfl
@[simp] theorem absorbByte_regBlock (s : State) (b : Byte) : (absorbByte s b).regBlock = s.regBlock := by
  unfold absorbByte; split <;> rfl
@[simp] theorem absorbByte_pending (s : State) (b : Byte) : (absorbByte s b).pending = s.pending := by
  unfold absorbByte; split <;> rfl
@[simp] theorem absorbByte_readLog (s : State) (b : Byte) : (absorbByte s b).readLog = s.readLog := by
  unfold absorbByte; split <;> rfl

@[simp] theorem absorb_total (bytes : List Byte) (s : State) : (absorb bytes s).total = s.total := by
  induction bytes generalizing s with
  | nil => rfl
  | cons b bytes ih => exact (ih (absorbByte s b)).trans (absorbByte_total s b)
@[simp] theorem absorb_din (bytes : List Byte) (s : State) : (absorb bytes s).din = s.din := by
  induction bytes generalizing s with
  | nil => rfl
  | cons b bytes ih => exact (ih (absorbByte s b)).trans (absorbByte_din s b)
@[simp] theorem absorb_dout (bytes : List Byte) (s : State) : (absorb bytes s).dout = s.dout := by
  induction bytes generalizing s with
  | nil => rfl
  | cons b bytes ih => exact (ih (absorbByte s b)).trans (absorbByte_dout s b)
@[simp] theorem absorb_status (bytes : List Byte) (s : State) : (absorb bytes s).status = s.status := by
  induction bytes generalizing s with
  | nil => rfl
  | cons b bytes ih => exact (ih (absorbByte s b)).trans (absorbByte_status s b)
@[simp] theorem absorb_ready (bytes : List Byte) (s : State) : (absorb bytes s).ready = s.ready := by
  induction bytes generalizing s with
  | nil => rfl
  | cons b bytes ih => exact (ih (absorbByte s b)).trans (absorbByte_ready s b)
@[simp] theorem absorb_powerLosses (bytes : List Byte) (s : State) : (absorb bytes s).powerLosses = s.powerLosses := by
  induction bytes generalizing s with
  | nil => rfl
  | cons b bytes ih => exact (ih (absorbByte s b)).trans (absorbByte_powerLosses s b)
@[simp] theorem absorb_regBlock (bytes : List Byte) (s : State) : (absorb bytes s).regBlock = s.regBlock := by
  induction bytes generalizing s with
  | nil => rfl
  | cons b bytes ih => exact (ih (absorbByte s b)).trans (absorbByte_regBlock s b)
@[simp] theorem absorb_pending (bytes : List Byte) (s : State) : (absorb bytes s).pending = s.pending := by
  induction bytes generalizing s with
  | nil => rfl
  | cons b bytes ih => exact (ih (absorbByte s b)).trans (absorbByte_pending s b)
@[simp] theorem absorb_readLog (bytes : List Byte) (s : State) : (absorb bytes s).readLog = s.readLog := by
  induction bytes generalizing s with
  | nil => rfl
  | cons b bytes ih => exact (ih (absorbByte s b)).trans (absorbByte_readLog s b)

end Sys2Proof.Machine
end

