-- ==== Sys2Proof/Laws/Engine.lean ====
section
/-! SUPPORT. What the streaming engine does: absorbing in closed form, and the engine against the reference function. -/

namespace Sys2Proof.Machine

@[simp] theorem absorb_nil (s : State) : absorb [] s = s := rfl

theorem absorb_cons (b : Byte) (bytes : List Byte) (s : State) : absorb (b :: bytes) s = absorb bytes (absorbByte s b) := rfl

theorem absorb_append (x y : List Byte) (s : State) : absorb (x ++ y) s = absorb y (absorb x s) := List.foldl_append ..

theorem absorbByte_short (s : State) (b : Byte) (h : s.pb.length < 7) : absorbByte s b = { s with pb := s.pb ++ [b] } := by
  unfold absorbByte
  rw [if_neg]
  simp only [List.length_append, List.length_singleton, Config.blockBytes]; omega

theorem absorbByte_full (s : State) (b : Byte) (h : s.pb.length = 7) :
    absorbByte s b = { fold (le64 (s.pb ++ [b])) s with pb := [] } := by
  unfold absorbByte
  rw [if_pos]
  simp only [List.length_append, List.length_singleton, Config.blockBytes]; omega

/-- Below 8 pending bytes, absorbing only appends. -/
theorem absorb_short (bytes : List Byte) (s : State) (h : s.pb.length + bytes.length < 8) :
    absorb bytes s = { s with pb := s.pb ++ bytes } := by
  induction bytes generalizing s with
  | nil => simp
  | cons b bytes ih =>
    simp only [List.length_cons] at h
    rw [absorb_cons, absorbByte_short s b (by omega), ih _ (by simp; omega)]
    simp

/-- From 8 pending bytes on (at most 15), absorbing folds exactly one block and leaves the rest pending (R104). -/
theorem absorb_long (bytes : List Byte) (s : State) (hp : s.pb.length ≤ 7) (h8 : 8 ≤ s.pb.length + bytes.length)
    (h16 : s.pb.length + bytes.length < 16) :
    absorb bytes s = { fold (le64 ((s.pb ++ bytes).take 8)) s with pb := (s.pb ++ bytes).drop 8 } := by
  induction bytes generalizing s with
  | nil => simp only [List.length_nil] at h8; omega
  | cons b bytes ih =>
    simp only [List.length_cons] at h8 h16
    rw [absorb_cons]
    by_cases h7 : s.pb.length = 7
    · have e : s.pb ++ b :: bytes = (s.pb ++ [b]) ++ bytes := by simp
      rw [absorbByte_full s b h7, absorb_short _ _ (by simp; omega), e, List.take_left' (by simp [h7]),
        List.drop_left' (by simp [h7])]
      simp
    · rw [absorbByte_short s b (by omega), ih _ (by simp; omega) (by simp; omega) (by simp; omega)]
      simp [fold]

/-! ## The reference function's loop -/

/-- A block inside `buf` does not change when bytes are appended. -/
theorem slice_append_left (buf more : List Byte) (lo hi : Nat) (h : hi ≤ buf.length) :
    slice (buf ++ more) lo hi = slice buf lo hi := by
  unfold slice
  by_cases hlo : lo ≤ hi
  · rw [List.drop_append_of_le_length (by omega), List.take_append_of_le_length (by simp; omega)]
  · simp [show hi - lo = 0 by omega]

theorem hashBlock_append (buf more : List Byte) (j : Nat) (h : 8 * j + 8 ≤ buf.length) (acc : Lanes × Fin 4) :
    hashBlock (buf ++ more) acc j = hashBlock buf acc j := by
  unfold hashBlock; rw [slice_append_left _ _ _ _ h]

theorem foldl_hashBlock_append (buf more : List Byte) (js : List Nat) (h : ∀ j ∈ js, 8 * j + 8 ≤ buf.length)
    (acc : Lanes × Fin 4) : js.foldl (hashBlock (buf ++ more)) acc = js.foldl (hashBlock buf) acc := by
  induction js generalizing acc with
  | nil => simp only [List.foldl_nil]
  | cons j js ih =>
    simp only [List.foldl_cons]
    rw [hashBlock_append _ _ _ (h j List.mem_cons_self), ih (fun i hi => h i (List.mem_cons_of_mem _ hi))]

theorem hashTail_eq (buf : List Byte) : hashTail buf = buf.drop (8 * (buf.length / 8)) := by
  unfold hashTail slice; rw [List.take_of_length_le (by simp)]

theorem hashTail_length (buf : List Byte) : (hashTail buf).length = buf.length % 8 := by
  rw [hashTail_eq, List.length_drop]; omega

/-- One more byte that completes no block. -/
theorem hashBlocks_append_short (buf : List Byte) (b : Byte) (h : buf.length % 8 ≠ 7) :
    hashBlocks (buf ++ [b]) = hashBlocks buf ∧ hashTail (buf ++ [b]) = hashTail buf ++ [b] := by
  have e : (buf ++ [b]).length / 8 = buf.length / 8 := by simp; omega
  constructor
  · unfold hashBlocks
    rw [e, foldl_hashBlock_append]
    intro j hj
    have := List.mem_range.mp hj
    omega
  · rw [hashTail_eq, hashTail_eq, e, List.drop_append_of_le_length (by omega)]

/-- One more byte that completes a block: the block is folded into the next lane, and no tail is left. -/
theorem hashBlocks_append_full (buf : List Byte) (b : Byte) (h : buf.length % 8 = 7) :
    hashBlocks (buf ++ [b]) = ((hashBlocks buf).1.mix (hashBlocks buf).2 (le64 (hashTail buf ++ [b])), (hashBlocks buf).2 + 1) ∧
    hashTail (buf ++ [b]) = [] := by
  have e : (buf ++ [b]).length / 8 = buf.length / 8 + 1 := by simp; omega
  have ht : slice (buf ++ [b]) (8 * (buf.length / 8)) (8 * (buf.length / 8) + 8) = hashTail buf ++ [b] := by
    unfold slice
    rw [List.drop_append_of_le_length (by omega), hashTail_eq, List.take_of_length_le (by simp; omega)]
  constructor
  · unfold hashBlocks
    rw [e, List.range_succ, List.foldl_append, foldl_hashBlock_append buf [b] (List.range (buf.length / 8))]
    · simp only [List.foldl_cons, List.foldl_nil, hashBlock, ht]
    · intro j hj
      have := List.mem_range.mp hj
      omega
  · rw [hashTail_eq, e, List.drop_eq_nil_of_le (by simp; omega)]

/-! ## The engine against the reference -/

theorem engineHolds_seeds (s : State) (h : SameEngine s State.reset) : EngineHolds [] s := by
  obtain ⟨h1, h2, h3, h4⟩ := h
  exact ⟨h1, h2, h3, h4⟩

/-- The engine but for TOTAL: what WRITE's loop keeps. -/
abbrev LanesHold (S : List Byte) (s : State) : Prop :=
  s.lanes = (hashBlocks S).1 ∧ s.li = (hashBlocks S).2 ∧ s.pb = hashTail S

theorem lanesHold_absorbByte (S : List Byte) (s : State) (b : Byte) (h : LanesHold S s) :
    LanesHold (S ++ [b]) (absorbByte s b) := by
  obtain ⟨hl, hi, hp⟩ := h
  have hlen := hashTail_length S
  by_cases h7 : S.length % 8 = 7
  · obtain ⟨e1, e2⟩ := hashBlocks_append_full S b h7
    rw [absorbByte_full s b (by rw [hp]; omega)]
    refine ⟨?_, ?_, ?_⟩ <;> simp [e1, e2, hl, hi, hp]
  · obtain ⟨e1, e2⟩ := hashBlocks_append_short S b h7
    rw [absorbByte_short s b (by rw [hp]; omega)]
    exact ⟨by rw [e1]; exact hl, by rw [e1]; exact hi, by rw [e2]; simp [hp]⟩

theorem lanesHold_absorb (S bytes : List Byte) (s : State) (h : LanesHold S s) :
    LanesHold (S ++ bytes) (absorb bytes s) := by
  induction bytes generalizing S s with
  | nil => simpa using h
  | cons b bytes ih =>
    have := ih (S ++ [b]) (absorbByte s b) (lanesHold_absorbByte S s b h)
    simpa [absorb_cons] using this

/-- The digest of an engine that holds S is the one-shot hash of S, when S is shorter than 2^64 bytes. -/
theorem digest_of_engineHolds (S : List Byte) (s : State) (h : EngineHolds S s) : digest s = oneShotHash S := by
  obtain ⟨hl, hi, ht, hp⟩ := h
  have hlen := hashTail_length S
  have hf : finalLanes s = hashLanes S := by
    unfold finalLanes hashLanes State.pbc
    rw [hp, hlen, hl, hi]
    by_cases h0 : S.length % 8 = 0
    · simp [h0]
    · rw [if_pos (by omega), if_pos h0]
  unfold digest oneShotHash
  rw [hf, ht]

end Sys2Proof.Machine
end

