-- ==== Sys2Proof/Laws/PerInstr.lean ====
section
/-! SUPPORT. Per command: the fields of its encoding are its opcode, its LEN and zero (30_encoding.md R58). -/

namespace Sys2Proof.Laws.EncodedFields

/-- The encoding's OP is the command's opcode, its LEN the command's operand (or 0), and its reserved bits are 0. -/
def Statement (i : Instr) : Prop :=
  opField (encode i) = opcode i ∧ lenField (encode i) = lenOperand i ∧ rsvField (encode i) = 0

theorem init : Statement .init := by unfold Statement; decide

theorem write (len : BitVec 4) : Statement (.write len) := by unfold Statement; revert len; decide

theorem finish : Statement .finish := by unfold Statement; decide

theorem diffuse : Statement .diffuse := by unfold Statement; decide

theorem undiffuse : Statement .undiffuse := by unfold Statement; decide

theorem tailpack (len : BitVec 4) : Statement (.tailpack len) := by unfold Statement; revert len; decide

end Sys2Proof.Laws.EncodedFields
end

