-- ==== Sys2Proof/Laws/Serve.lean ====
section
/-! SUPPORT. What a command, a host access and a step can do: the inversion lemmas later proofs cite. -/

namespace Sys2Proof.Machine

/-- Every command completes: `exec` answers a next state for every command and state. -/
theorem exec_completes (i : Instr) (s : State) : ∃ t, exec i s = .next t := by
  cases i <;> simp only [exec, execInit, execWrite, execFinish, execDiffuse, execUndiffuse, execTailpack]
  all_goals first | exact ⟨_, rfl⟩ | (split <;> exact ⟨_, rfl⟩)

theorem exec_init (s : State) : exec .init s = .next (initEngine s) := rfl
theorem exec_finish (s : State) : exec .finish s = .next (writeResult (digest s) s) := rfl
theorem exec_diffuse (s : State) : exec .diffuse s = .next (writeResult (Machine.diffuse s.din) s) := rfl
theorem exec_undiffuse (s : State) : exec .undiffuse s = .next (writeResult (Machine.undiffuse s.din) s) := rfl

/-- A legal LEN of WRITE: count, then absorb. -/
theorem execWrite_legal (len : BitVec 4) (s : State) (h : len.toNat ≤ 8) :
    exec (.write len) s = .next (absorb (byteLanes len.toNat s.din) { s with total := s.total + len.zeroExtend 64 }) :=
  if_pos h

theorem execWrite_illegal (len : BitVec 4) (s : State) (h : 8 < len.toNat) :
    exec (.write len) s = .next (raiseIllegal .badLen s) :=
  if_neg (by simpa using h)

theorem execTailpack_legal (len : BitVec 4) (s : State) (h : len.toNat ≤ 7) :
    exec (.tailpack len) s = .next (writeResult (tailpack (byteLanes len.toNat s.din)) s) :=
  if_pos h

theorem execTailpack_illegal (len : BitVec 4) (s : State) (h : 7 < len.toNat) :
    exec (.tailpack len) s = .next (raiseIllegal .badLen s) :=
  if_neg (by simpa using h)

/-- What a command can do: set the engine to its seeds, absorb bytes, write a result, or (for a LEN no legal word has)
record the error. -/
theorem exec_cases {i : Instr} {s t : State} (h : exec i s = .next t) :
    (i = .init ∧ t = initEngine s) ∨
    (∃ len, i = .write len ∧ len.toNat ≤ 8 ∧
      t = absorb (byteLanes len.toNat s.din) { s with total := s.total + len.zeroExtend 64 }) ∨
    (∃ v, t = writeResult v s ∧ ((i = .finish ∧ v = digest s) ∨ (i = .diffuse ∧ v = Machine.diffuse s.din) ∨
      (i = .undiffuse ∧ v = Machine.undiffuse s.din) ∨
      ∃ len, i = .tailpack len ∧ len.toNat ≤ 7 ∧ v = Machine.tailpack (byteLanes len.toNat s.din))) ∨
    (¬ i.WellFormed ∧ t = raiseIllegal .badLen s) := by
  cases i with
  | init => exact .inl ⟨rfl, (Host.Outcome.next.inj h).symm⟩
  | write len =>
    by_cases hl : len.toNat ≤ 8
    · rw [execWrite_legal len s hl] at h
      exact .inr (.inl ⟨len, rfl, hl, (Host.Outcome.next.inj h).symm⟩)
    · rw [execWrite_illegal len s (by omega)] at h
      exact .inr (.inr (.inr ⟨by simpa [Instr.wf] using hl, (Host.Outcome.next.inj h).symm⟩))
  | finish => exact .inr (.inr (.inl ⟨_, (Host.Outcome.next.inj h).symm, .inl ⟨rfl, rfl⟩⟩))
  | diffuse => exact .inr (.inr (.inl ⟨_, (Host.Outcome.next.inj h).symm, .inr (.inl ⟨rfl, rfl⟩)⟩))
  | undiffuse => exact .inr (.inr (.inl ⟨_, (Host.Outcome.next.inj h).symm, .inr (.inr (.inl ⟨rfl, rfl⟩))⟩))
  | tailpack len =>
    by_cases hl : len.toNat ≤ 7
    · rw [execTailpack_legal len s hl] at h
      exact .inr (.inr (.inl ⟨_, (Host.Outcome.next.inj h).symm, .inr (.inr (.inr ⟨len, rfl, hl, rfl⟩))⟩))
    · rw [execTailpack_illegal len s (by omega)] at h
      exact .inr (.inr (.inr ⟨by simpa [Instr.wf] using hl, (Host.Outcome.next.inj h).symm⟩))

theorem regBase_eq (s : State) : s.regBase = 32 * s.regBlock := rfl

/-- An offset of the window that holds a register is that register's. -/
theorem atOffset_eq_some {off : Nat} {r : Reg} (h : Reg.atOffset off = some r) : off = r.offset := by
  unfold Reg.atOffset at h
  split at h
  · cases h; assumption
  · split at h
    · cases h; assumption
    · split at h
      · cases h; assumption
      · split at h
        · cases h; assumption
        · cases h

@[simp] theorem atOffset_offset (r : Reg) : Reg.atOffset r.offset = some r := by cases r <;> rfl

theorem offset_lt (r : Reg) : r.offset < 32 := by cases r <;> decide

theorem touchesWindow_iff (base : Nat) (a : Access) :
    touchesWindow base a = true ↔ a.addr < base + 32 ∧ base < a.addr + max a.width 1 := decide_eq_true_iff

/-! The stops of an access, one lemma each. -/

theorem serveAccess_notReset (a : Access) (s : State) (h : s.ready = false) : serveAccess a s = .fault .notReset :=
  if_pos h

theorem serveAccess_outside (a : Access) (s : State) (hr : s.ready = true)
    (h : ¬ (a.addr < s.regBase + 32 ∧ s.regBase < a.addr + max a.width 1)) :
    serveAccess a s = .fault (.outsideWindow a.addr) := by
  have ht : touchesWindow s.regBase a = false := by rw [← touchesWindow_iff] at h; exact Bool.eq_false_iff.mpr h
  simp only [serveAccess, hr, ht, Bool.true_eq_false, if_false, if_true]

theorem serveAccess_badWidth (a : Access) (s : State) (hr : s.ready = true)
    (h : a.addr < s.regBase + 32 ∧ s.regBase < a.addr + max a.width 1) (hw : a.width ≠ 8) :
    serveAccess a s = .refused (.badWidth a.width) := by
  have ht := (touchesWindow_iff s.regBase a).mpr h
  simp only [serveAccess, hr, ht, Bool.true_eq_false, if_false, Config.accessBytes, if_pos hw]

theorem atOffset_misaligned (off : Nat) (h : off % 8 ≠ 0) : Reg.atOffset off = none := by
  unfold Reg.atOffset
  rw [if_neg (by omega), if_neg (by omega), if_neg (by omega), if_neg (by omega)]

theorem serveAccess_misaligned (a : Access) (s : State) (hr : s.ready = true) (hw : a.width = 8)
    (h : a.addr < s.regBase + 32 ∧ s.regBase < a.addr + 8) (hm : a.addr < s.regBase ∨ (a.addr - s.regBase) % 8 ≠ 0) :
    serveAccess a s = .refused (.misaligned a.addr) := by
  have ht := (touchesWindow_iff s.regBase a).mpr (by omega)
  have h3 : (if s.regBase ≤ a.addr then Reg.atOffset (a.addr - s.regBase) else none) = none := by
    split
    · exact atOffset_misaligned _ (by omega)
    · rfl
  simp only [serveAccess, hr, ht, hw, Bool.true_eq_false, if_false, Config.accessBytes, ne_eq, not_true_eq_false, h3]

/-- An aligned 8-byte access to a register of the window of a unit that has been reset. -/
theorem serveAccess_reg (r : Reg) (k : AccessKind) (s : State) (h : s.ready = true) :
    serveAccess ⟨s.regBase + r.offset, 8, k⟩ s = accessReg r k s := by
  have h1 := offset_lt r
  have h2 : touchesWindow s.regBase ⟨s.regBase + r.offset, 8, k⟩ = true := by
    simp only [touchesWindow_iff]; omega
  have h3 : (if s.regBase ≤ s.regBase + r.offset then Reg.atOffset (s.regBase + r.offset - s.regBase) else none) = some r := by
    rw [if_pos (by omega), Nat.add_sub_cancel_left, atOffset_offset]
  simp only [serveAccess, h, h2, Bool.true_eq_false, if_false, Config.accessBytes, ne_eq, not_true_eq_false, h3]

/-- What an access can do if it completes: it is an aligned 8-byte access to a register of a unit that has been reset. -/
theorem serveAccess_next {a : Access} {s t : State} (h : serveAccess a s = .next t) :
    s.ready = true ∧ ∃ r, a = ⟨s.regBase + r.offset, 8, a.kind⟩ ∧ accessReg r a.kind s = .next t := by
  unfold serveAccess at h
  split at h
  · cases h
  · rename_i hr
    split at h
    · cases h
    · split at h
      · cases h
      · rename_i hw
        split at h
        · cases h
        · rename_i r hm
          split at hm
          · rename_i hb
            refine ⟨by simpa using hr, r, ?_, h⟩
            have hoff := atOffset_eq_some hm
            have hw' : a.width = 8 := by simpa using hw
            cases a
            simp only [Access.mk.injEq, and_true] at *
            exact ⟨by omega, hw'⟩
          · cases hm

/-- A write to CMD: the decoded command's rule, or the illegal-command action (R58). -/
theorem runCommand_legal {c : Word} {i : Instr} (h : decode c = .legal i) (s : State) : runCommand c s = exec i s := by
  simp only [runCommand, h]

theorem runCommand_illegal {c : Word} {cause : IllegalCause} (h : decode c = .illegal cause) (s : State) :
    runCommand c s = .next (raiseIllegal cause s) := by
  simp only [runCommand, h]

theorem runCommand_completes (c : Word) (s : State) : ∃ t, runCommand c s = .next t := by
  cases h : decode c with
  | legal i => rw [runCommand_legal h]; exact exec_completes i s
  | illegal cause => exact ⟨_, runCommand_illegal h s⟩

theorem accessReg_completes (r : Reg) (k : AccessKind) (s : State) : ∃ t, accessReg r k s = .next t := by
  cases k with
  | read => exact ⟨_, rfl⟩
  | write v => cases r <;> first | exact ⟨_, rfl⟩ | exact runCommand_completes v s

/-- A step on a pending access to a register of a unit that has been reset. -/
theorem step_access (r : Reg) (k : AccessKind) (s : State) (rest : List HostEvent) (hr : s.ready = true)
    (hp : s.pending = .access ⟨32 * s.regBlock + r.offset, 8, k⟩ :: rest) :
    step s = accessReg r k { s with pending := rest } := by
  simp only [step, serveNext, hp, serveEvent]
  exact serveAccess_reg r k { s with pending := rest } hr

/-- A step on a pending write of a legal command word. -/
theorem step_command (c : Word) (i : Instr) (s : State) (rest : List HostEvent) (hr : s.ready = true)
    (hp : s.pending = .access ⟨32 * s.regBlock, 8, .write c⟩ :: rest) (hd : decode c = .legal i) :
    step s = exec i { s with pending := rest } :=
  (step_access .cmd (.write c) s rest hr hp).trans (runCommand_legal hd _)

/-- A step on a pending write of an illegal command word. -/
theorem step_illegal (c : Word) (cause : IllegalCause) (s : State) (rest : List HostEvent) (hr : s.ready = true)
    (hp : s.pending = .access ⟨32 * s.regBlock, 8, .write c⟩ :: rest) (hd : decode c = .illegal cause) :
    step s = .next (raiseIllegal cause { s with pending := rest }) :=
  (step_access .cmd (.write c) s rest hr hp).trans (runCommand_illegal hd _)

/-- A step on a pending write to DIN. -/
theorem step_din (v : Word) (s : State) (rest : List HostEvent) (hr : s.ready = true)
    (hp : s.pending = .access ⟨32 * s.regBlock + 0x08, 8, .write v⟩ :: rest) :
    step s = .next { s with pending := rest, din := v } :=
  step_access .din (.write v) s rest hr hp

/-- A step on a pending read of DOUT. -/
theorem step_readDout (s : State) (rest : List HostEvent) (hr : s.ready = true)
    (hp : s.pending = .access ⟨32 * s.regBlock + 0x10, 8, .read⟩ :: rest) :
    step s = .next { s with pending := rest, readLog := s.dout :: s.readLog } :=
  step_access .dout .read s rest hr hp

theorem step_event (e : HostEvent) (s : State) (rest : List HostEvent) (hp : s.pending = e :: rest) :
    step s = serveEvent e { s with pending := rest } := by
  simp only [step, serveNext, hp]

/-- What a step can do. -/
theorem step_cases {s t : State} (h : step s = .next t) :
    (s.pending = [] ∧ t = s) ∨
    (∃ o rest, s.pending = .reset o :: rest ∧ t = resetUnit { s with pending := rest }) ∨
    (∃ rest, s.pending = .powerLoss :: rest ∧ t = losePower { s with pending := rest }) ∨
    (s.ready = true ∧ ∃ r k rest, s.pending = .access ⟨32 * s.regBlock + r.offset, 8, k⟩ :: rest ∧
      accessReg r k { s with pending := rest } = .next t) := by
  unfold step serveNext at h
  split at h
  · rename_i hp; exact .inl ⟨hp, (Host.Outcome.next.inj h).symm⟩
  · rename_i e rest hp
    cases e with
    | access a =>
      obtain ⟨hr, r, ha, hx⟩ := serveAccess_next h
      refine .inr (.inr (.inr ⟨hr, r, a.kind, rest, ?_, hx⟩))
      rw [hp, ha]; rfl
    | reset o => exact .inr (.inl ⟨o, rest, hp, (Host.Outcome.next.inj h).symm⟩)
    | powerLoss => exact .inr (.inr (.inl ⟨rest, hp, (Host.Outcome.next.inj h).symm⟩))

/-- What an access to a register can do. -/
theorem accessReg_cases {r : Reg} {k : AccessKind} {s t : State} (h : accessReg r k s = .next t) :
    (k = .read ∧ t = logRead (readReg r s) s) ∨
    (∃ v, k = .write v ∧ ((r = .din ∧ t = { s with din := v }) ∨ ((r = .dout ∨ r = .status) ∧ t = s) ∨
      (r = .cmd ∧ ((∃ i, decode v = .legal i ∧ exec i s = .next t) ∨
        ∃ cause, decode v = .illegal cause ∧ t = raiseIllegal cause s)))) := by
  cases k with
  | read => exact .inl ⟨rfl, (Host.Outcome.next.inj h).symm⟩
  | write v =>
    refine .inr ⟨v, rfl, ?_⟩
    cases r with
    | cmd =>
      refine .inr (.inr ⟨rfl, ?_⟩)
      have h' : runCommand v s = .next t := h
      cases hd : decode v with
      | legal i => exact .inl ⟨i, rfl, (runCommand_legal hd s) ▸ h'⟩
      | illegal cause => exact .inr ⟨cause, rfl, (Host.Outcome.next.inj ((runCommand_illegal hd s) ▸ h')).symm⟩
    | din => exact .inl ⟨rfl, (Host.Outcome.next.inj h).symm⟩
    | dout => exact .inr (.inl ⟨.inl rfl, (Host.Outcome.next.inj h).symm⟩)
    | status => exact .inr (.inl ⟨.inr rfl, (Host.Outcome.next.inj h).symm⟩)

end Sys2Proof.Machine
end

