-- ==== Sys2Proof/Laws/Run.lean ====
section
/-! SUPPORT. Runs of several steps, taken apart one step at a time. -/

namespace Sys2Proof.Machine

theorem runs_zero_iff (s t : State) : Runs 0 s t ↔ s = t := by
  constructor
  · intro h
    exact Host.Outcome.next.inj h
  · rintro rfl
    rfl

theorem runs_succ_iff (k : Nat) (s t : State) : Runs (k + 1) s t ↔ ∃ u, step s = .next u ∧ Runs k u t := by
  constructor
  · intro h
    cases hs : step s with
    | next u => exact ⟨u, rfl, by simpa only [Runs, Host.Core.run, Sys2Proof.core, hs] using h⟩
    | fault f => simp only [Runs, Host.Core.run, Sys2Proof.core, hs, reduceCtorEq] at h
    | refused r => simp only [Runs, Host.Core.run, Sys2Proof.core, hs, reduceCtorEq] at h
  · rintro ⟨u, hs, h⟩
    simpa only [Runs, Host.Core.run, Sys2Proof.core, hs] using h

/-- A run of a host program: its first event, then the rest. -/
theorem runs_cons {s u t : State} {k : Nat} (h : step s = .next u) (h' : Runs k u t) : Runs (k + 1) s t :=
  (runs_succ_iff k s t).mpr ⟨u, h, h'⟩

/-- The same for a claim about the state the run ends in. -/
theorem runs_cons_exists {s u : State} {k : Nat} {P : State → Prop} (h : step s = .next u) (h' : ∃ t, Runs k u t ∧ P t) :
    ∃ t, Runs (k + 1) s t ∧ P t :=
  h'.imp fun _ ht => ⟨runs_cons h ht.1, ht.2⟩

theorem acceptedAlong_cons {s u : State} {e : HostEvent} {rest : List HostEvent} (k : Nat) (S : List Byte)
    (hp : s.pending = e :: rest) (h : step s = .next u) :
    acceptedAlong (k + 1) S s = acceptedAlong k (acceptedAfter S s e) u := by
  simp only [acceptedAlong, hp, h]

theorem runs_nil_exists {s : State} {P : State → Prop} (h : P s) : ∃ t, Runs 0 s t ∧ P t :=
  ⟨s, (runs_zero_iff s s).mpr rfl, h⟩

end Sys2Proof.Machine
end

