-- ==== Sys2Proof/Tests/Slice0.lean ====
section
/-! SUPPORT. Tests of the model, with results taken from the spec (95_test_vectors.md and the rules' own examples), and for
every statement with hypotheses a witness that meets them. -/

namespace Sys2Proof.Tests

open Sys2Proof.Machine

/-! ## Helpers -/

/-- The next state of an outcome, if it is one. -/
def after : Host.Outcome State Fault Refusal → Option State
  | .next s => some s
  | .fault _ => none
  | .refused _ => none

/-- The fault of an outcome, if it is one. -/
def faultOf : Host.Outcome State Fault Refusal → Option Fault
  | .fault f => some f
  | .next _ => none
  | .refused _ => none

/-- The refusal of an outcome, if it is one. -/
def refusalOf : Host.Outcome State Fault Refusal → Option Refusal
  | .refused r => some r
  | .next _ => none
  | .fault _ => none

/-- A unit at reset with `events` pending. -/
def unitWith (events : List HostEvent) : State := { State.reset with pending := events }

/-- A unit at reset whose DIN holds `d`. -/
def unitDin (d : Word) : State := { State.reset with din := d }

/-- A host write to CMD, DIN, DOUT or STATUS of the unit at reset, and a host read. -/
def put (r : Reg) (v : Word) : HostEvent := .access (writeAccess State.reset r v)

def fetch (r : Reg) : HostEvent := .access (readAccess State.reset r)

/-- The ASCII bytes of "to be or not to be" (95, S12). -/
def toBe : List Byte :=
  [0x74, 0x6f, 0x20, 0x62, 0x65, 0x20, 0x6f, 0x72, 0x20, 0x6e, 0x6f, 0x74, 0x20, 0x74, 0x6f, 0x20, 0x62, 0x65]

/-! ## WellFormed: an ill-formed term for each check -/

theorem test_wf_write : (Instr.write 8).wf = true ∧ (Instr.write 9).wf = false := by decide
theorem test_wf_tailpack : (Instr.tailpack 7).wf = true ∧ (Instr.tailpack 8).wf = false := by decide

/-! ## Decoding: words written out bit by bit from R58 and R59, RSV (56 bits) then LEN (4) then OP (4) -/

theorem test_decode_init : decode (BitVec.ofNat 56 0 ++ 0b0000#4 ++ 0b0001#4) = .legal .init := by decide
theorem test_decode_write : decode (BitVec.ofNat 56 0 ++ 0b1000#4 ++ 0b0010#4) = .legal (.write 8) := by decide
theorem test_decode_finish : decode (BitVec.ofNat 56 0 ++ 0b0000#4 ++ 0b0011#4) = .legal .finish := by decide
theorem test_decode_diffuse : decode (BitVec.ofNat 56 0 ++ 0b0000#4 ++ 0b0100#4) = .legal .diffuse := by decide
theorem test_decode_undiffuse : decode (BitVec.ofNat 56 0 ++ 0b0000#4 ++ 0b0101#4) = .legal .undiffuse := by decide
theorem test_decode_tailpack : decode (BitVec.ofNat 56 0 ++ 0b0011#4 ++ 0b0110#4) = .legal (.tailpack 3) := by decide

/-- 95 section 2.4, E1 to E13: STATUS after the word is written to CMD of the unit at reset, as the host reads it. -/
theorem test_illegal_words :
    ([(0x00, 0x11), (0x07, 0x11), (0x0f, 0x11), (0x107, 0x11), (0x197, 0x11), (0x8000000000000002, 0x21), (0x92, 0x31),
      (0xa2, 0x31), (0x86, 0x31), (0x11, 0x31), (0x13, 0x31), (0x14, 0x31), (0x15, 0x31)] : List (Word × Word)).all
      (fun p => (after (step (unitWith [put .cmd p.1]))).map (readReg .status) = some p.2) = true := by decide +kernel

/-- 95 E14 and E15: the nearest legal words. -/
theorem test_nearest_legal :
    (after (step (unitWith [put .cmd 0x82]))).map (readReg .status) = some 0x0 ∧
    (after (step (unitWith [put .cmd 0x76]))).map (fun s => (readReg .status s, s.dout)) = some (0x2, 0) := by decide +kernel

theorem test_decodeTableWord : decodeTableWord 64 0x82 = some (.write 8) ∧ decodeTableWord 64 0x92 = none := by decide

theorem test_decodeBytes :
    decodeBytes [0x36, 0, 0, 0, 0, 0, 0, 0, 0xff] = some (.legal (.tailpack 3), [0xff]) ∧ decodeBytes [0x36] = none := by
  decide

/-- The step that follows `withFetchWord` runs the word as the first instruction after reset. -/
theorem test_withFetchWord :
    (after (step (State.withFetchWord State.reset 64 0x82))).map (fun s => (s.total, s.li)) = some (8, 1) := by
  decide +kernel

/-! ## The commands -/

/-- P4 line 8: INIT puts the engine back to the seeds and leaves STATUS. -/
theorem test_init :
    (after (exec .init { State.reset with
      lanes := ⟨0xc8fb48493246366b, 0, 0, 0⟩, li := 1, total := 8, pb := [9], status := ⟨true, true, 3⟩ })).map (fun s => (s.lanes.l0, s.li, s.total, s.pb, readReg .status s))
      = some (0x16f11fe89b0d677c, 0, 0, [], 0x33) := by decide +kernel

/-- P4 line 5: the third to fifth byte fill the buffer; one fold, and nothing is left pending. -/
theorem test_write_fold :
    (after (exec (.write 3) { unitDin 0x0807060504030201 with total := 5, pb := [1, 2, 3, 4, 5] })).map
      (fun s => (s.lanes.l0, s.li, s.total, s.pb)) = some (0xc8fb48493246366b, 1, 8, []) := by decide +kernel

/-- P2 line 4: a fold that leaves bytes pending. -/
theorem test_write_straddle :
    (after (exec (.write 7) { unitDin 0x6e20726f206562 with total := 3, pb := [0x74, 0x6f, 0x20] })).map
      (fun s => (s.lanes.l0, s.li, s.total, s.pb)) = some (0x385291d13b860b97, 1, 10, [0x20, 0x6e]) := by decide +kernel

/-- P1 line 8: a two-byte tail goes to lane 2. -/
theorem test_finish_tail :
    (after (exec .finish { State.reset with
      lanes := ⟨0x385291d13b860b97, 0x13e961cdeeb28fd7, 0x6fe2e5aaf078ebc9, 0x14f994a4c5259381⟩
      li := 2, total := 18, pb := [0x62, 0x65] })).map (fun s => (s.dout, readReg .status s, s.pb))
      = some (0x1b993a826f4ae575, 0x2, [0x62, 0x65]) := by decide +kernel

/-- S2: a tail that is one zero byte still folds. -/
theorem test_finish_zero_tail :
    (after (exec .finish { State.reset with total := 1, pb := [0] })).map State.dout = some 0x78d3db1f028ac5fd := by
  decide +kernel

/-- D1 and D8. -/
theorem test_diffuse :
    (after (exec .diffuse (unitDin 0xffffffffffffffff))).map State.dout = some 0x9b94506f5ef7dc07 ∧
    (after (exec .diffuse (unitDin 0x0123456789abcdef))).map State.dout = some 0x8cee7e610e13afd4 := by decide +kernel

/-- U4 and U9. -/
theorem test_undiffuse :
    (after (exec .undiffuse (unitDin 0xffffffffffffffff))).map State.dout = some 0xf9e8b94fafe84555 ∧
    (after (exec .undiffuse (unitDin 0xdeadbeefcafebabe))).map State.dout = some 0xecabcf846a737d24 := by decide +kernel

/-- T9 and T10: byte 7 is dropped, and junk in higher lanes is ignored. -/
theorem test_tailpack :
    (after (exec (.tailpack 7) (unitDin 0xffeeddccbbaa9988))).map State.dout = some 0xeeddccbbaa9988 ∧
    (after (exec (.tailpack 3) (unitDin 0xffffffffff050203))).map State.dout = some 328195 := by decide +kernel

/-- S12 and S1: the reference function. -/
theorem test_oneShotHash : oneShotHash toBe = 1988685042348123509 ∧ oneShotHash [] = 0xc920ca43256fdcb9 := by
  decide +kernel

/-- S13: 33 bytes, the tail in lane 0 after the wrap. -/
theorem test_oneShotHash_wrap :
    oneShotHash ((List.range 33).map fun i => BitVec.ofNat 8 (i + 1)) = 0xfbc52cab2ad096d9 := by decide +kernel

/-! ## The window, reset, power -/

/-- P4 line 10 as one access: the host reads STATUS. -/
theorem test_read_status :
    (after (step { unitWith [fetch .status] with status := ⟨true, true, 3⟩ })).map State.readLog = some [0x33] := by
  decide

theorem test_window_stops :
    refusalOf (step (unitWith [.access ⟨0, 4, .read⟩])) = some (.badWidth 4) ∧
    refusalOf (step (unitWith [.access ⟨12, 8, .write 1⟩])) = some (.misaligned 12) ∧
    refusalOf (step { unitWith [.access ⟨28, 8, .read⟩] with regBlock := 1 }) = some (.misaligned 28) ∧
    faultOf (step (unitWith [.access ⟨32, 8, .read⟩])) = some (.outsideWindow 32) ∧
    faultOf (step { unitWith [.access ⟨0, 8, .read⟩] with ready := false }) = some .notReset := by decide

theorem test_reset_event :
    (after (step { unitWith [.reset (some ⟨0, 8, .write 0x82⟩)] with din := 5, total := 3, status := ⟨true, true, 3⟩ })).map
      (fun s => (s.din, s.total, readReg .status s, s.pending)) = some (0, 0, 0, []) := by decide

/-- R67 and R68: a line as written, and `hash` of two bytes as accesses. -/
theorem test_assembler :
    parseLine ['w', 'r', 'i', 't', 'e', ' ', '8', ' ', ';', 'x'] = some (.write 8) ∧
    parseLine ['d', 'i', 'n', ' ', '0', 'x', '1', 'F'] = some (.din 0x1f) ∧
    parseLine ['w', 'r', 'i', 't', 'e'] = none ∧
    assemble State.reset (Pseudo.hash [0x62, 0x65]).expand
      = some [put .cmd 0x01, put .din 0x6562, put .cmd 0x22, put .cmd 0x03] := by decide +kernel

/-- R68: `wr <imm64>, <n>` and `unmix <imm64>` as written; `wr` without its length is not of the syntax. -/
theorem test_parse_pseudo :
    parsePseudo ['w', 'r', ' ', '1', '7', ',', ' ', '2'] = some (.wr 17 2) ∧
    parsePseudo ['u', 'n', 'm', 'i', 'x', ' ', '0', 'x', 'a'] = some (.unmix 10) ∧
    parsePseudo ['w', 'r', ' ', '1', '7'] = none := by decide

/-! ## Witnesses: concrete values that meet the hypotheses of each statement together -/

/-- LegalWordsAreExactlyTwentyOne, DecodeAndEncodeAgree: a word and its command, at the largest LEN. -/
theorem wit_decoded : decode 0x82 = .legal (.write 8) ∧ decode 0x76 = .legal (.tailpack 7) ∧ (Instr.write 8).WellFormed ∧
    (Instr.tailpack 7).WellFormed := by decide

/-- DecodeRunsChecksInOrder, and the first part of the six command statements: a word for each check. -/
theorem wit_checks :
    ((0xf : Word).extractLsb' 0 4 ∉ [(1 : BitVec 4), 2, 3, 4, 5, 6]) ∧
    ((0x101 : Word).extractLsb' 0 4 ∈ [(1 : BitVec 4), 2, 3, 4, 5, 6] ∧ (0x101 : Word).extractLsb' 8 56 ≠ 0) ∧
    ((0x11 : Word).extractLsb' 8 56 = 0 ∧ (0x11 : Word).extractLsb' 0 4 = 1 ∧ (0x11 : Word).extractLsb' 4 4 ≠ 0) ∧
    ((0x92 : Word).extractLsb' 8 56 = 0 ∧ (0x92 : Word).extractLsb' 0 4 = 2 ∧ 8 < ((0x92 : Word).extractLsb' 4 4).toNat) ∧
    ((0x86 : Word).extractLsb' 8 56 = 0 ∧ (0x86 : Word).extractLsb' 0 4 = 6 ∧ 7 < ((0x86 : Word).extractLsb' 4 4).toNat) ∧
    ((0x14 : Word).extractLsb' 0 4 = 4 ∧ (0x14 : Word) ≠ 0x04 ∧ (0x15 : Word).extractLsb' 0 4 = 5 ∧ (0x15 : Word) ≠ 0x05 ∧
      (0x13 : Word).extractLsb' 0 4 = 3 ∧ (0x13 : Word) ≠ 0x03) ∧
    ((0x04 : Word).extractLsb' 8 56 = 0 ∧ (0x04 : Word).extractLsb' 4 4 = 0 ∧ (0x04 : Word).extractLsb' 0 4 = 4) ∧
    ((0x82 : Word).extractLsb' 8 56 = 0 ∧ (0x82 : Word).extractLsb' 0 4 = 2 ∧ ((0x82 : Word).extractLsb' 4 4).toNat ≤ 8) ∧
    ((0x76 : Word).extractLsb' 8 56 = 0 ∧ (0x76 : Word).extractLsb' 0 4 = 6 ∧ ((0x76 : Word).extractLsb' 4 4).toNat ≤ 7) := by
  decide

/-- ResetEventSetsEveryElement, PowerLossRequiresReset, IdleUnitHoldsItsState. -/
theorem wit_reset_power :
    (unitWith [.reset (some ⟨0, 8, .read⟩)]).pending = .reset (some ⟨0, 8, .read⟩) :: [] ∧
    (unitWith [.powerLoss]).pending = .powerLoss :: [] ∧
    (∃ s : State, s.ready = false ∧ s.pending = fetch .din :: []) ∧
    (∃ s : State, s.ready = false ∧ s.pending = .reset none :: []) ∧ State.reset.pending = [] :=
  ⟨by decide, by decide, ⟨{ unitWith [fetch .din] with ready := false }, by decide⟩,
    ⟨{ unitWith [.reset none] with ready := false }, by decide⟩, by decide⟩

/-- WindowReadsReturnRegisters: the first and the last register at REG_BASE 32. -/
theorem wit_window_reads :
    ∃ s s' : State, s.ready = true ∧ s'.ready = true ∧ s.pending = .access ⟨32 * s.regBlock + 0x00, 8, .read⟩ :: [] ∧
      s'.pending = .access ⟨32 * s'.regBlock + 0x18, 8, .read⟩ :: [] ∧
      ((0x00, 0) : Nat × Word) ∈ [(0x00, 0), (0x08, s.din), (0x10, s.dout), (0x18, s.status.toWord)] ∧
      ((0x18, s'.status.toWord) : Nat × Word) ∈ [(0x00, 0), (0x08, s'.din), (0x10, s'.dout), (0x18, s'.status.toWord)] :=
  ⟨{ unitWith [.access ⟨32, 8, .read⟩] with regBlock := 1 }, { unitWith [.access ⟨56, 8, .read⟩] with regBlock := 1 },
    by decide⟩

/-- DinWriteStoresOnlyDin, IgnoredWritesAndZeroRead. -/
theorem wit_window_writes :
    (unitWith [put .din 7]).pending = .access ⟨32 * State.reset.regBlock + 0x08, 8, .write 7⟩ :: [] ∧
    (unitWith [put .dout 7]).pending = .access ⟨32 * State.reset.regBlock + 0x10, 8, .write 7⟩ :: [] ∧
    (unitWith [put .status 7]).pending = .access ⟨32 * State.reset.regBlock + 0x18, 8, .write 7⟩ :: [] ∧
    (unitWith [fetch .cmd]).pending = .access ⟨32 * State.reset.regBlock, 8, .read⟩ :: [] ∧
    (unitWith []).ready = true := by decide

/-- StepRunsDecodedCommand, IllegalCommandOnlyRecordsError: each cause. -/
theorem wit_commands :
    ((unitWith [put .cmd 0x82]).pending = .access ⟨32 * State.reset.regBlock, 8, .write 0x82⟩ :: [] ∧
      decode 0x82 = .legal (.write 8)) ∧
    decode 0x00 = .illegal .illegalOp ∧ decode 0x101 = .illegal .reservedBits ∧ decode 0x92 = .illegal .badLen := by decide

/-- A unit with REG_BASE 32 and one access pending. -/
def unitAt32 (a : Access) : State := { unitWith [.access a] with regBlock := 1 }

/-- MalformedAccessIsRefused, one for each part: too narrow at the first byte, 8 bytes at the last byte, and the last
register, all at REG_BASE 32. -/
theorem wit_malformed :
    (∃ (s : State) (a : Access), s.ready = true ∧ s.pending = .access a :: [] ∧ 32 * s.regBlock ≤ a.addr ∧
      a.addr < 32 * s.regBlock + 32 ∧ a.width ≠ 8) ∧
    (∃ (s : State) (a : Access), s.ready = true ∧ s.pending = .access a :: [] ∧ 32 * s.regBlock ≤ a.addr ∧
      a.addr < 32 * s.regBlock + 32 ∧ a.width = 8 ∧ (a.addr - 32 * s.regBlock) % 8 ≠ 0) ∧
    (∃ (s : State) (a : Access), s.ready = true ∧ s.pending = .access a :: [] ∧ 32 * s.regBlock ≤ a.addr ∧
      a.addr < 32 * s.regBlock + 32 ∧ a.width = 8 ∧ (a.addr - 32 * s.regBlock) % 8 = 0) :=
  ⟨⟨unitAt32 ⟨32, 4, .read⟩, ⟨32, 4, .read⟩, by decide⟩, ⟨unitAt32 ⟨63, 8, .read⟩, ⟨63, 8, .read⟩, by decide⟩,
    ⟨unitAt32 ⟨56, 8, .read⟩, ⟨56, 8, .read⟩, by decide⟩⟩

/-- AccessOutsideWindowFaults, one for each part: the 8 bytes just below the window, and the byte just above it. -/
theorem wit_outside :
    (∃ (s : State) (a : Access), s.ready = true ∧ s.pending = .access a :: [] ∧ 0 < a.width ∧
      a.addr + a.width ≤ 32 * s.regBlock) ∧
    (∃ (s : State) (a : Access), s.ready = true ∧ s.pending = .access a :: [] ∧ 0 < a.width ∧
      32 * s.regBlock + 32 ≤ a.addr) :=
  ⟨⟨unitAt32 ⟨24, 8, .read⟩, ⟨24, 8, .read⟩, by decide⟩, ⟨unitAt32 ⟨64, 1, .read⟩, ⟨64, 1, .read⟩, by decide⟩⟩

/-- WindowBytesAreLittleEndian: the last byte of the window. -/
theorem wit_windowByte : (7 < 8) ∧ windowByte (unitDin 0xff00000000000000) 15 = some 0xff ∧
    windowByte State.reset 31 = some 0 ∧ windowByte State.reset 32 = none := by decide

/-- StatusIsSticky: a step, no reset, from a unit with ERR and DVALID set. -/
theorem wit_sticky : ∃ s t : State, step s = .next t ∧ (∀ o, s.pending.head? ≠ some (.reset o)) ∧
    s.pending.head? ≠ some .powerLoss ∧ s.status.err = true ∧ s.status.dvalid = true :=
  ⟨{ unitWith [put .cmd 0x01] with status := ⟨true, true, 2⟩ }, _, rfl, by simp [unitWith, put], by decide, rfl, rfl⟩

/-- OnlyIllegalCommandsSetErr. -/
theorem wit_sets_err : ∃ s t : State, step s = .next t ∧ s.pending.head? ≠ some .powerLoss ∧ s.status.err = false ∧
    t.status.err = true :=
  ⟨unitWith [put .cmd 0x92], _, rfl, by decide, rfl, rfl⟩

/-- OnlyHostWritesChangeDin, OnlyResultCommandsChangeDout, OnlyInitAndWriteChangeEngine: a step that changes each. -/
theorem wit_changes_din : ∃ s t : State, step s = .next t ∧ t.din ≠ s.din := ⟨unitWith [put .din 7], _, rfl, by decide⟩
theorem wit_changes_dout : ∃ s t : State, step s = .next t ∧ t.dout ≠ s.dout :=
  ⟨{ unitWith [put .cmd 0x06] with dout := 5 }, _, rfl, by decide⟩
theorem wit_changes_engine : ∃ s t : State, step s = .next t ∧ ¬ SameEngine s t :=
  ⟨{ unitWith [put .cmd 0x01] with total := 5 }, _, rfl, by decide⟩

/-- EngineIsHiddenUntilFinish: two units that differ only in their engines, and the next command is no FINISH. -/
theorem wit_hidden : ∃ s s' : State, SameToHost s s' ∧ ¬ SameEngine s s' ∧
    (∀ (c : Word) (rest : List HostEvent),
      s.pending = .access ⟨32 * s.regBlock, 8, .write c⟩ :: rest → decode c ≠ .legal .finish) :=
  ⟨unitWith [put .din 7], { unitWith [put .din 7] with total := 5 }, by decide, by decide, by
    intro c rest h; simp [unitWith, put, writeAccess, Reg.offset, State.reset, State.regBase] at h⟩

/-- The diffusion statements: DIN at each corner the rules name. -/
theorem wit_diffusion : (unitDin 0).din = 0 ∧ (unitDin 1).din = 1 ∧ (unitDin (diffuse 7)).din = diffuse 7 ∧
    (unitDin 15197155197312260123).din = 15197155197312260123 ∧
    K * KInv = 1 ∧ (0x6eed0e9da4d94a4f * (0x2f72b4215a3d8caf : Word)).extractLsb' 60 4 = 0 := by decide

/-- DiffusionRoundTripOnUnit. -/
theorem wit_roundTrip : ∃ s : State, s.ready = true ∧
    s.pending = .access ⟨32 * s.regBlock + 0x08, 8, .write 9⟩ :: .access ⟨32 * s.regBlock, 8, .write 0x04⟩ ::
      .access ⟨32 * s.regBlock + 0x08, 8, .write (diffuse 9)⟩ :: .access ⟨32 * s.regBlock, 8, .write 0x05⟩ ::
      .access ⟨32 * s.regBlock + 0x10, 8, .read⟩ :: [] :=
  ⟨unitWith [put .din 9, put .cmd 4, put .din (diffuse 9), put .cmd 5, fetch .dout], rfl, rfl⟩

/-- The tail packer's statements: n at 0 and 7, two DINs that agree below lane n, sequences of equal length. -/
theorem wit_tail : (0#4).toNat ≤ 7 ∧ (7#4).toNat ≤ 7 ∧ 7 < (8#4).toNat ∧ 8 < (9#4).toNat ∧
    (∀ i < 3, (unitDin 0xffffffffff050203).din.extractLsb' (8 * i) 8 = (unitDin 0x050203).din.extractLsb' (8 * i) 8) ∧
    ([1, 2, 3, 4, 5, 6, 7] : List Byte).length ≤ 7 ∧ (5 : Word).toNat < 2 ^ (8 * 1) ∧ tailpack [0x03] = tailpack [0x03] := by
  decide

/-- WriteCommand: a buffer of 7 bytes with n = 0 (no fold), with n = 8 (15 bytes, one fold), and an empty one with n = 8. -/
theorem wit_write :
    (([1, 2, 3, 4, 5, 6, 7] : List Byte).length ≤ 7 ∧ ([1, 2, 3, 4, 5, 6, 7] : List Byte).length + (0#4).toNat < 8) ∧
    ((8#4).toNat ≤ 8 ∧ 8 ≤ ([1, 2, 3, 4, 5, 6, 7] : List Byte).length + (8#4).toNat) ∧ State.reset.pb = [] ∧
    (∀ i < (2#4).toNat, (unitDin 0xffff6562).din.extractLsb' (8 * i) 8 = (0x6562 : Word).extractLsb' (8 * i) 8) := by decide

theorem wit_init_next : ∃ s t : State, exec .init s = .next t := ⟨State.reset, _, rfl⟩

/-- FinishCommand: an empty buffer, and a buffer of one zero byte. -/
theorem wit_finish : State.reset.pb.length = 0 ∧ ({ State.reset with pb := [0] } : State).pb.length = 1 ∧
    ({ State.reset with pb := [0] } : State).li = 0 := by decide

/-- FinishIsRepeatable: FINISH, then a WRITE (third part) or a DIFFUSE (second part) after a DIN write. -/
theorem wit_finish_repeat : ∃ s u : State, s.ready = true ∧
    s.pending = .access ⟨32 * s.regBlock, 8, .write 0x03⟩ :: [put .din 7, put .cmd 0x04] ∧
    (∀ e ∈ [put .din 7, put .cmd 0x04],
      CommandOrDinWrite s (fun c => decode c ≠ .legal .init ∧ ∀ n, decode c ≠ .legal (.write n)) e) ∧ Completes s u := by
  refine ⟨unitWith [put .cmd 3, put .din 7, put .cmd 4], _, rfl, rfl, ?_, rfl⟩
  intro e he
  simp only [List.mem_cons, List.not_mem_nil, or_false] at he
  rcases he with rfl | rfl
  · exact ⟨7, .inl rfl⟩
  · exact ⟨4, .inr ⟨rfl, by decide⟩⟩

theorem wit_finish_then_write : ∃ s u : State, s.ready = true ∧
    s.pending = .access ⟨32 * s.regBlock, 8, .write 0x03⟩ :: [put .din 7, put .cmd 0x82] ∧
    (∀ e ∈ [put .din 7, put .cmd 0x82], CommandOrDinWrite s (fun _ => True) e) ∧
    Completes { s with pending := [put .din 7, put .cmd 0x82] } u := by
  refine ⟨unitWith [put .cmd 3, put .din 7, put .cmd 0x82], _, rfl, rfl, ?_, rfl⟩
  intro e he
  simp only [List.mem_cons, List.not_mem_nil, or_false] at he
  rcases he with rfl | rfl
  · exact ⟨7, .inl rfl⟩
  · exact ⟨0x82, .inr ⟨rfl, trivial⟩⟩

/-- DigestMixesLengthModulo, BlocksGoRoundRobin, AbsorbAcceptsItsBytes: an engine that holds bytes (none, and 1 byte). -/
theorem wit_engineHolds : EngineHolds [] State.reset ∧ EngineHolds [5] { State.reset with total := 1, pb := [5] } ∧
    ([5] : List Byte).length % 8 ≠ 0 := by decide +kernel

/-- BlocksGoRoundRobin: the lanes of an input of one block and a tail. -/
theorem wit_roundRobin : ∃ (S : List Byte) (lane : Fin 4 → Word), S.length % 8 ≠ 0 ∧ 8 < S.length ∧
    ∀ k : Fin 4, lane k = ((List.range (S.length / 8)).filter (fun j => j % 4 = k.val)).foldl
      (fun acc j => diffuse (acc ^^^ le64 (slice S (8 * j) (8 * j + 8)))) (seedLanes.get k) :=
  ⟨toBe, _, by decide, by decide, fun _ => rfl⟩

/-- HostLinesAreAccesses: the edges of its ranges. -/
theorem wit_lines : (8 ≤ 8) ∧ (7 ≤ 7) ∧ (8 < 9) ∧ (7 < 8) := by decide

/-- CommandFrames, LegalCommandsNeverFail. -/
theorem wit_exec : ∃ t, exec (.write 8) State.reset = .next t ∧ (Instr.write 8).WellFormed := ⟨_, rfl, rfl⟩

/-- StepKeepsInvariant: a step from a state that meets the invariant. -/
theorem wit_invariant : ∃ s t : State, Inv s ∧ step s = .next t ∧ s.ready = true :=
  ⟨unitWith [put .cmd 0x82], _, by decide, rfl, rfl⟩

/-- StepKeepsEngineExact. -/
theorem wit_exact : ∃ s t : State, (s.ready = true → EngineHolds [] s) ∧ s.pending = put .cmd 0x82 :: [] ∧ step s = .next t ∧
    t.ready = true :=
  ⟨unitWith [put .cmd 0x82], _, fun _ => by decide +kernel, rfl, rfl, rfl⟩

/-- StreamingEqualsOneShot: a legal WRITE and an illegal word from reset. -/
theorem wit_streaming : ∃ s t : State, s.ready = true ∧ SameEngine s State.reset ∧ (∀ e ∈ s.pending, e ≠ .powerLoss) ∧
    Completes s t ∧ (acceptedAlong s.pending.length [] s).length < 2 ^ 64 :=
  ⟨unitWith [put .cmd 0x12, put .cmd 0x92], _, rfl, by decide, by decide, rfl, by decide +kernel⟩

/-- ChunkingIsInvisible: two splits of the same bytes, one with an empty chunk. -/
theorem wit_chunks : ([[1], [2, 3]] : List (List Byte)).flatten = ([[1, 2], [], [3]] : List (List Byte)).flatten ∧
    (∀ c ∈ ([[1], [2, 3]] : List (List Byte)), c.length ≤ 8) ∧ (∀ c ∈ ([[1, 2], [], [3]] : List (List Byte)), c.length ≤ 8) ∧
    SameEngine State.reset State.reset ∧ ([[1], [2, 3]] : List (List Byte)).flatten.length < 2 ^ 64 := by decide

/-- HashSequenceComputesHash. -/
theorem wit_hash : State.reset.ready = true ∧ ([0x62, 0x65] : List Byte).length < 2 ^ 64 ∧
    ∃ events, assemble State.reset (Pseudo.hash [0x62, 0x65]).expand = some events := ⟨rfl, by decide, _, rfl⟩

/-- InstancesShareNothing: the second of two units serves an event. -/
theorem wit_instances : ∃ q, Platform.stepUnit [State.reset, unitWith [put .din 7]] 1 = some (.next q) := ⟨_, rfl⟩

/-- HostsMayInterleave: a ready unit. -/
theorem wit_hosts : State.reset.ready = true := rfl

end Sys2Proof.Tests
end

section
/-! PROOFS. What one served event does, case by case, and with it the step lemmas about the invariants, STATUS, DIN,
DOUT and the engine, and what the host sees of the engine (10_state.md). -/

namespace Sys2Proof.Machine

/-! ## What serving one event does -/

/-- The four commands that write DOUT (10_state.md R27). -/
abbrev IsResult (i : Instr) : Prop := i = .finish ∨ i = .diffuse ∨ i = .undiffuse ∨ ∃ n, i = .tailpack n

/-- What the unit `s` becomes by serving an event that completes, one constructor per kind of effect: `serveAccess_next`,
`accessReg_cases` and `exec_cases` put together, so that a proof about steps has one flat case split. -/
inductive EventEffect (s : State) : HostEvent → State → Prop where
  | reset (o : Option Access) : EventEffect s (.reset o) (resetUnit s)
  | powerLoss : EventEffect s .powerLoss (losePower s)
  | read (r : Reg) : EventEffect s (.access ⟨32 * s.regBlock + r.offset, 8, .read⟩) (logRead (readReg r s) s)
  | dinWrite (v : Word) : EventEffect s (.access ⟨32 * s.regBlock + 0x08, 8, .write v⟩) { s with din := v }
  | ignoredWrite (r : Reg) (v : Word) (hr : r ≠ .cmd) :
      EventEffect s (.access ⟨32 * s.regBlock + r.offset, 8, .write v⟩) s
  | illegal (c : Word) (cause : IllegalCause) (hd : decode c = .illegal cause) :
      EventEffect s (.access ⟨32 * s.regBlock, 8, .write c⟩) (raiseIllegal cause s)
  | init (c : Word) (hd : decode c = .legal .init) :
      EventEffect s (.access ⟨32 * s.regBlock, 8, .write c⟩) (initEngine s)
  | write (c : Word) (len : BitVec 4) (hd : decode c = .legal (.write len)) (hlen : len.toNat ≤ 8) :
      EventEffect s (.access ⟨32 * s.regBlock, 8, .write c⟩)
        (absorb (byteLanes len.toNat s.din) { s with total := s.total + len.zeroExtend 64 })
  | result (c : Word) (i : Instr) (v : Word) (hd : decode c = .legal i) (hi : IsResult i) :
      EventEffect s (.access ⟨32 * s.regBlock, 8, .write c⟩) (writeResult v s)

/-- The decoder gives well-formed commands only (30_encoding.md R60, R62). -/
theorem wellFormed_of_decode {c : Word} {i : Instr} (hd : decode c = .legal i) : i.WellFormed := by
  obtain ⟨hcommand, -, hlegal⟩ := (decode_legal_iff c i).mp hd
  obtain ⟨-, hlen⟩ := opcode_of_commandOf _ _ i hcommand
  rwa [hlen hlegal, lenLegal_lenOperand] at hlegal

/-- A served command word that decodes to a command. -/
theorem eventEffect_of_exec {s t : State} {c : Word} {i : Instr} (hd : decode c = .legal i) (h : exec i s = .next t) :
    EventEffect s (.access ⟨32 * s.regBlock, 8, .write c⟩) t := by
  rcases exec_cases h with ⟨rfl, rfl⟩ | ⟨len, rfl, hlen, rfl⟩ | ⟨v, rfl, hv⟩ | ⟨hwf, -⟩
  · exact .init c hd
  · exact .write c len hd hlen
  · have hi : IsResult i := hv.imp And.left (Or.imp And.left (Or.imp And.left (Exists.imp fun _ => And.left)))
    exact .result c i v hd hi
  · exact absurd (wellFormed_of_decode hd) hwf

theorem eventEffect_of_accessReg {r : Reg} {k : AccessKind} {s t : State} (h : accessReg r k s = .next t) :
    EventEffect s (.access ⟨32 * s.regBlock + r.offset, 8, k⟩) t := by
  rcases accessReg_cases h with
    ⟨rfl, rfl⟩ | ⟨v, rfl, ⟨rfl, rfl⟩ | ⟨hr, rfl⟩ | ⟨rfl, ⟨i, hd, hexec⟩ | ⟨cause, hd, rfl⟩⟩⟩
  · exact .read r
  · exact .dinWrite v
  · exact .ignoredWrite r v (by rcases hr with rfl | rfl <;> decide)
  · exact eventEffect_of_exec hd hexec
  · exact .illegal v cause hd

theorem eventEffect_of_serveEvent {e : HostEvent} {s t : State} (h : serveEvent e s = .next t) : EventEffect s e t := by
  cases e with
  | access a =>
    obtain ⟨-, r, ha, hreg⟩ := serveAccess_next h
    rw [ha]
    exact eventEffect_of_accessReg hreg
  | reset o => exact Host.Outcome.next.inj h ▸ .reset o
  | powerLoss => exact Host.Outcome.next.inj h ▸ .powerLoss

theorem step_idle {s : State} (hp : s.pending = []) : step s = .next s := by
  simp only [step, serveNext, hp]

/-- A completed step is idle, or the effect of the oldest pending event. -/
theorem step_effect {s t : State} (h : step s = .next t) :
    (s.pending = [] ∧ t = s) ∨
    ∃ e rest, s.pending = e :: rest ∧ EventEffect { s with pending := rest } e t := by
  cases hp : s.pending with
  | nil =>
    rw [step_idle hp] at h
    exact .inl ⟨rfl, (Host.Outcome.next.inj h).symm⟩
  | cons e rest =>
    rw [step_event e s rest hp] at h
    exact .inr ⟨e, rest, rfl, eventEffect_of_serveEvent h⟩

/-! ## The invariants of the engine and of STATUS -/

/-- TOTAL counts modulo 2^64 (10_state.md R23). -/
theorem total_add_len_toNat (w : Word) (len : BitVec 4) :
    (w + len.zeroExtend 64).toNat = (w.toNat + len.toNat) % 2 ^ 64 := by
  rw [BitVec.toNat_add, BitVec.toNat_setWidth_of_le (by decide)]

theorem engineInv_of_seeds {s : State} (hli : s.li = 0) (htotal : s.total = 0) (hpb : s.pb = []) : EngineInv s := by
  simp [EngineInv, hli, htotal, hpb]

/-- WRITE keeps the engine's invariant: the bytes join PB, or one block of 8 leaves it as LI advances (42_stream_engine.md
R104). 8 and 4 * 8 divide 2^64, so the wrap of TOTAL changes neither remainder. -/
theorem engineInv_write {s : State} (h : EngineInv s) (len : BitVec 4) (hlen : len.toNat ≤ 8) (bytes : List Byte)
    (hbytes : bytes.length = len.toNat) : EngineInv (absorb bytes { s with total := s.total + len.zeroExtend 64 }) := by
  obtain ⟨hle, hpb, hli⟩ := h
  have htotal := total_add_len_toNat s.total len
  by_cases hshort : s.pb.length + bytes.length < 8
  · rw [absorb_short bytes { s with total := s.total + len.zeroExtend 64 } hshort]
    simp only [EngineInv, List.length_append, htotal]
    omega
  · rw [absorb_long bytes { s with total := s.total + len.zeroExtend 64 } hle (Nat.le_of_not_lt hshort)
      (by simp only; omega)]
    simp only [EngineInv, fold_total, fold_li, List.length_drop, List.length_append, htotal, Fin.val_add]
    refine ⟨by omega, by omega, ?_⟩
    change (s.li.val + 1) % 4 = _
    omega

theorem statusInv_of_clear {s : State} (h : s.status = clearStatus) : StatusInv s := by
  simp [StatusInv, h, clearStatus]

theorem causeCode_legal (cause : IllegalCause) : (causeCode cause).toNat ≤ 3 ∧ causeCode cause ≠ 0 := by
  cases cause <;> decide

/-- The first illegal command gives ECAUSE a legal code, a later one leaves it (60_exceptions.md R133). -/
theorem statusInv_raiseIllegal {s : State} (cause : IllegalCause) (h : StatusInv s) : StatusInv (raiseIllegal cause s) := by
  obtain ⟨hle, hzero⟩ := h
  obtain ⟨hcode, hne⟩ := causeCode_legal cause
  cases herr : s.status.err with
  | false => simpa [StatusInv, herr] using ⟨hcode, hne⟩
  | true =>
    have hset : s.status.ecause ≠ 0 := fun h0 => by simp [hzero.mpr h0] at herr
    simpa [StatusInv, herr] using ⟨hle, hset⟩

/-- INIT and reset establish the engine's part, WRITE and the illegal-command action keep their parts, a loss of power
leaves the unit not ready, and nothing else touches the fields. -/
theorem inv_of_eventEffect {e : HostEvent} {s t : State} (hinv : Inv s) (h : EventEffect s e t) : Inv t := by
  intro hready
  cases h with
  | reset o => exact ⟨engineInv_of_seeds rfl rfl rfl, statusInv_of_clear rfl⟩
  | powerLoss => simp at hready
  | read r => exact hinv hready
  | dinWrite v => exact hinv hready
  | ignoredWrite r v => exact hinv hready
  | illegal c cause => exact (hinv hready).imp_right (statusInv_raiseIllegal cause)
  | init c => exact ⟨engineInv_of_seeds rfl rfl rfl, (hinv hready).right⟩
  | write c len _ hlen =>
    obtain ⟨hengine, hstatus⟩ := hinv (by simpa using hready)
    exact ⟨engineInv_write hengine len hlen _ (by simp), by simpa only [StatusInv, absorb_status] using hstatus⟩
  | result c i v => exact hinv hready

/-- Settles O50: an idle step changes nothing, and every event keeps the invariant. -/
theorem stepKeepsInvariant : Obligations.StepKeepsInvariant := by
  intro s t hinv hstep
  obtain ⟨-, rfl⟩ | ⟨e, rest, -, heffect⟩ := step_effect hstep
  · exact hinv
  · exact inv_of_eventEffect (s := { s with pending := rest }) hinv heffect

/-- Settles O8: the engine at its seeds and a clear STATUS meet their invariants. -/
theorem resetMeetsInvariant : Obligations.ResetMeetsInvariant :=
  fun _ => ⟨engineInv_of_seeds rfl rfl rfl, statusInv_of_clear rfl⟩

/-! ## The engine holds exactly the accepted bytes -/

/-- WRITE's count and loop append its bytes to those the engine holds (42_stream_engine.md R101, R110). -/
theorem engineHolds_write {S bytes : List Byte} {s : State} (h : EngineHolds S s) (len : BitVec 4)
    (hbytes : bytes.length = len.toNat) :
    EngineHolds (S ++ bytes) (absorb bytes { s with total := s.total + len.zeroExtend 64 }) := by
  obtain ⟨hlanes, hli, htotal, hpb⟩ := h
  obtain ⟨hlanes', hli', hpb'⟩ :=
    lanesHold_absorb S bytes { s with total := s.total + len.zeroExtend 64 } ⟨hlanes, hli, hpb⟩
  refine ⟨hlanes', hli', ?_, hpb'⟩
  rw [absorb_total, htotal, List.length_append, BitVec.ofNat_add, hbytes, BitVec.ofNat_toNat]

@[simp] theorem command_cmdWrite (s : State) (c : Word) :
    (HostEvent.access ⟨32 * s.regBlock, 8, .write c⟩).command s = some c := by
  simp [HostEvent.command, regBase_eq]

theorem command_otherWrite (s : State) (r : Reg) (v : Word) (hr : r ≠ .cmd) :
    (HostEvent.access ⟨32 * s.regBlock + r.offset, 8, .write v⟩).command s = none := by
  have hoff : r.offset ≠ 0 := by
    cases r with
    | cmd => exact absurd rfl hr
    | din => decide
    | dout => decide
    | status => decide
  simp [HostEvent.command, regBase_eq, hoff]

theorem acceptedAfter_noCommand (S : List Byte) (s : State) (a : Access) (h : (HostEvent.access a).command s = none) :
    acceptedAfter S s (.access a) = S := by
  simp only [acceptedAfter, h, Option.map_none]

theorem acceptedAfter_init (S : List Byte) (s : State) {c : Word} (hd : decode c = .legal .init) :
    acceptedAfter S s (.access ⟨32 * s.regBlock, 8, .write c⟩) = [] := by
  simp only [acceptedAfter, command_cmdWrite, Option.map_some, hd]

theorem acceptedAfter_write (S : List Byte) (s : State) {c : Word} {len : BitVec 4} (hd : decode c = .legal (.write len)) :
    acceptedAfter S s (.access ⟨32 * s.regBlock, 8, .write c⟩) = S ++ byteLanes len.toNat s.din := by
  simp only [acceptedAfter, command_cmdWrite, Option.map_some, hd]

theorem acceptedAfter_illegal (S : List Byte) (s : State) {c : Word} {cause : IllegalCause}
    (hd : decode c = .illegal cause) : acceptedAfter S s (.access ⟨32 * s.regBlock, 8, .write c⟩) = S := by
  simp only [acceptedAfter, command_cmdWrite, Option.map_some, hd]

theorem acceptedAfter_result (S : List Byte) (s : State) {c : Word} {i : Instr} (hd : decode c = .legal i)
    (hi : IsResult i) : acceptedAfter S s (.access ⟨32 * s.regBlock, 8, .write c⟩) = S := by
  rcases hi with rfl | rfl | rfl | ⟨n, rfl⟩ <;> simp only [acceptedAfter, command_cmdWrite, Option.map_some, hd]

/-- What an event adds to the accepted bytes does not depend on the events behind it. -/
theorem acceptedAfter_pending (S : List Byte) (s : State) (rest : List HostEvent) (e : HostEvent) :
    acceptedAfter S { s with pending := rest } e = acceptedAfter S s e := by
  cases e <;> rfl

/-- A unit that holds S holds, after an event, what the event makes of S. -/
theorem engineHolds_of_eventEffect {S : List Byte} {s t : State} {e : HostEvent}
    (hS : s.ready = true → EngineHolds S s) (h : EventEffect s e t) (hready : t.ready = true) :
    EngineHolds (acceptedAfter S s e) t := by
  cases h with
  | reset o => exact engineHolds_seeds _ ⟨rfl, rfl, rfl, rfl⟩
  | powerLoss => simp at hready
  | read r => rw [acceptedAfter_noCommand S s _ rfl]; exact hS hready
  | dinWrite v =>
    have hnone := acceptedAfter_noCommand S s _ (command_otherWrite s .din v (by decide))
    exact hnone.symm ▸ hS hready
  | ignoredWrite r v hr => rw [acceptedAfter_noCommand S s _ (command_otherWrite s r v hr)]; exact hS hready
  | illegal c cause hd => rw [acceptedAfter_illegal S s hd]; exact hS hready
  | init c hd => rw [acceptedAfter_init S s hd]; exact engineHolds_seeds _ ⟨rfl, rfl, rfl, rfl⟩
  | write c len hd =>
    rw [acceptedAfter_write S s hd]
    exact engineHolds_write (hS (by simpa using hready)) len (by simp)
  | result c i v hd hi => rw [acceptedAfter_result S s hd hi]; exact hS hready

/-- Settles O51, by what serving the oldest pending event does to the engine. -/
theorem stepKeepsEngineExact : Obligations.StepKeepsEngineExact := by
  intro S s t e rest hS hp hstep hready
  rw [step_event e s rest hp] at hstep
  rw [← acceptedAfter_pending S s rest e]
  exact engineHolds_of_eventEffect (s := { s with pending := rest }) hS (eventEffect_of_serveEvent hstep) hready

/-! ## STATUS, DIN, DOUT and the engine over all steps -/

/-- Settles O20: only the illegal-command action and a result command write STATUS, and each keeps what is set. -/
theorem statusIsSticky : Obligations.StatusIsSticky := by
  intro s t hstep hreset hpower
  obtain ⟨-, rfl⟩ | ⟨e, rest, hp, heffect⟩ := step_effect hstep
  · exact ⟨fun herr => ⟨herr, rfl⟩, id⟩
  cases heffect with
  | reset o => simp [hp] at hreset
  | powerLoss => simp [hp] at hpower
  | read r => exact ⟨fun herr => ⟨herr, rfl⟩, id⟩
  | dinWrite v => exact ⟨fun herr => ⟨herr, rfl⟩, id⟩
  | ignoredWrite r v => exact ⟨fun herr => ⟨herr, rfl⟩, id⟩
  | illegal c cause => exact ⟨fun herr => ⟨rfl, by simp [herr]⟩, id⟩
  | init c => exact ⟨fun herr => ⟨herr, rfl⟩, id⟩
  | write c len => simp
  | result c i v => exact ⟨fun herr => ⟨herr, rfl⟩, fun _ => rfl⟩

/-- Settles O21: of all effects but a loss of power, only the illegal-command action leaves ERR set where it was clear. -/
theorem onlyIllegalCommandsSetErr : Obligations.OnlyIllegalCommandsSetErr := by
  intro s t hstep hpower hclear hset
  obtain ⟨-, rfl⟩ | ⟨e, rest, hp, heffect⟩ := step_effect hstep
  · simp [hclear] at hset
  cases heffect with
  | illegal c cause hd => exact ⟨c, cause, rest, hp, hd⟩
  | powerLoss => simp [hp] at hpower
  | reset o => simp [clearStatus] at hset
  | _ => simp [hclear] at hset

/-- Settles O22: no effect but a DIN write, reset and a loss of power writes DIN. -/
theorem onlyHostWritesChangeDin : Obligations.OnlyHostWritesChangeDin := by
  intro s t hstep hne
  obtain ⟨-, rfl⟩ | ⟨e, rest, hp, heffect⟩ := step_effect hstep
  · exact absurd rfl hne
  cases heffect with
  | dinWrite v => exact .inl ⟨v, rest, hp, rfl⟩
  | reset o => exact .inr (.inl ⟨o, rest, hp, rfl⟩)
  | powerLoss => exact .inr (.inr ⟨rest, hp⟩)
  | _ => simp at hne

/-- Settles O23: no effect but a result command's, reset and a loss of power writes DOUT. -/
theorem onlyResultCommandsChangeDout : Obligations.OnlyResultCommandsChangeDout := by
  intro s t hstep hne
  obtain ⟨-, rfl⟩ | ⟨e, rest, hp, heffect⟩ := step_effect hstep
  · exact absurd rfl hne
  cases heffect with
  | result c i v hd hi => exact .inl ⟨c, i, rest, hp, hd, hi, rfl⟩
  | reset o => exact .inr (.inl ⟨o, rest, hp, rfl⟩)
  | powerLoss => exact .inr (.inr ⟨rest, hp⟩)
  | _ => simp at hne

/-- Settles O24: no effect but INIT's, WRITE's, reset and a loss of power writes the engine. -/
theorem onlyInitAndWriteChangeEngine : Obligations.OnlyInitAndWriteChangeEngine := by
  intro s t hstep hne
  obtain ⟨-, rfl⟩ | ⟨e, rest, hp, heffect⟩ := step_effect hstep
  · exact absurd ⟨rfl, rfl, rfl, rfl⟩ hne
  cases heffect with
  | init c hd => exact .inl ⟨c, .init, rest, hp, hd, .inl rfl⟩
  | write c len hd => exact .inl ⟨c, .write len, rest, hp, hd, .inr ⟨len, rfl⟩⟩
  | reset o => exact .inr (.inl ⟨o, rest, hp⟩)
  | powerLoss => exact .inr (.inr ⟨rest, hp⟩)
  | _ => exact absurd ⟨rfl, rfl, rfl, rfl⟩ hne

end Sys2Proof.Machine
end

section
/-! PROOFS. What the host sees does not depend on the engine but through FINISH (10_state.md R32), and the single facts
about STATUS, TOTAL, reset and several units. -/

namespace Sys2Proof.Machine

/-! ## What the host sees of the engine -/

/-- Two outcomes look the same to the host: next states alike in all but the engine, or the same stop. -/
inductive OutcomesAlike : Host.Outcome State Fault Refusal → Host.Outcome State Fault Refusal → Prop where
  | next {t t' : State} (h : SameToHost t t') : OutcomesAlike (.next t) (.next t')
  | fault (f : Fault) : OutcomesAlike (.fault f) (.fault f)
  | refused (r : Refusal) : OutcomesAlike (.refused r) (.refused r)

theorem sameToHost_writeResult {s s' : State} (h : SameToHost s s') (v : Word) :
    SameToHost (writeResult v s) (writeResult v s') := by
  obtain ⟨hdin, -, hstatus, hrest⟩ := h
  exact ⟨hdin, rfl, congrArg Status.setValid hstatus, hrest⟩

theorem sameToHost_raiseIllegal {s s' : State} (h : SameToHost s s') (cause : IllegalCause) :
    SameToHost (raiseIllegal cause s) (raiseIllegal cause s') := by
  obtain ⟨hdin, hdout, hstatus, hrest⟩ := h
  exact ⟨hdin, hdout, congrArg (Status.recordIllegal cause) hstatus, hrest⟩

theorem sameToHost_logRead {s s' : State} (h : SameToHost s s') (v : Word) :
    SameToHost (logRead v s) (logRead v s') := by
  obtain ⟨hdin, hdout, hstatus, hready, hlosses, hblock, hpending, hlog⟩ := h
  exact ⟨hdin, hdout, hstatus, hready, hlosses, hblock, hpending, congrArg (v :: ·) hlog⟩

theorem sameToHost_absorb {s s' : State} (h : SameToHost s s') (bytes bytes' : List Byte) (n : Word) :
    SameToHost (absorb bytes { s with total := s.total + n }) (absorb bytes' { s' with total := s'.total + n }) := by
  simpa [SameToHost] using h

theorem sameToHost_resetUnit {s s' : State} (h : SameToHost s s') : SameToHost (resetUnit s) (resetUnit s') := by
  obtain ⟨-, -, -, -, hrest⟩ := h
  exact ⟨rfl, rfl, rfl, rfl, hrest⟩

/-- The free values depend on the window and the number of the loss only (log entry 5). -/
theorem sameToHost_losePower {s s' : State} (h : SameToHost s s') : SameToHost (losePower s) (losePower s') := by
  obtain ⟨-, -, -, -, hlosses, hblock, hpending, hlog⟩ := h
  simp [SameToHost, losePower, hlosses, hblock, hpending, hlog]

theorem sameToHost_pending {s s' : State} (h : SameToHost s s') (rest : List HostEvent) :
    SameToHost { s with pending := rest } { s' with pending := rest } := by
  obtain ⟨hdin, hdout, hstatus, hready, hlosses, hblock, -, hlog⟩ := h
  exact ⟨hdin, hdout, hstatus, hready, hlosses, hblock, rfl, hlog⟩

theorem pending_eq_of_sameToHost {s s' : State} (h : SameToHost s s') : s.pending = s'.pending := by
  obtain ⟨-, -, -, -, -, -, hpending, -⟩ := h
  exact hpending

theorem readReg_eq_of_sameToHost {s s' : State} (h : SameToHost s s') (r : Reg) : readReg r s = readReg r s' := by
  obtain ⟨hdin, hdout, hstatus, -⟩ := h
  cases r with
  | cmd => rfl
  | din => exact hdin
  | dout => exact hdout
  | status => exact congrArg Status.toWord hstatus

/-- Every command but FINISH: INIT and WRITE write the engine only, and the others take their operand from DIN. -/
theorem exec_alike {s s' : State} (h : SameToHost s s') {i : Instr} (hi : i ≠ .finish) :
    OutcomesAlike (exec i s) (exec i s') := by
  have hdin : s.din = s'.din := h.left
  cases i with
  | init => exact .next h
  | write len =>
    by_cases hlen : len.toNat ≤ 8
    · rw [execWrite_legal len s hlen, execWrite_legal len s' hlen]
      exact .next (sameToHost_absorb h _ _ _)
    · rw [execWrite_illegal len s (by omega), execWrite_illegal len s' (by omega)]
      exact .next (sameToHost_raiseIllegal h _)
  | finish => exact absurd rfl hi
  | diffuse =>
    rw [exec_diffuse, exec_diffuse, hdin]
    exact .next (sameToHost_writeResult h _)
  | undiffuse =>
    rw [exec_undiffuse, exec_undiffuse, hdin]
    exact .next (sameToHost_writeResult h _)
  | tailpack len =>
    by_cases hlen : len.toNat ≤ 7
    · rw [execTailpack_legal len s hlen, execTailpack_legal len s' hlen, hdin]
      exact .next (sameToHost_writeResult h _)
    · rw [execTailpack_illegal len s (by omega), execTailpack_illegal len s' (by omega)]
      exact .next (sameToHost_raiseIllegal h _)

theorem runCommand_alike {s s' : State} (h : SameToHost s s') {c : Word} (hc : decode c ≠ .legal .finish) :
    OutcomesAlike (runCommand c s) (runCommand c s') := by
  cases hd : decode c with
  | legal i =>
    rw [runCommand_legal hd, runCommand_legal hd]
    exact exec_alike h fun hi => hc (hi ▸ hd)
  | illegal cause =>
    rw [runCommand_illegal hd, runCommand_illegal hd]
    exact .next (sameToHost_raiseIllegal h cause)

theorem accessReg_alike {s s' : State} (h : SameToHost s s') {r : Reg} {k : AccessKind}
    (hc : ∀ c, r = .cmd → k = .write c → decode c ≠ .legal .finish) :
    OutcomesAlike (accessReg r k s) (accessReg r k s') := by
  cases k with
  | read =>
    have hread := readReg_eq_of_sameToHost h r
    refine .next ?_
    rw [hread]
    exact sameToHost_logRead h _
  | write v =>
    cases r with
    | cmd => exact runCommand_alike h (hc v rfl rfl)
    | din => exact .next ⟨rfl, h.right⟩
    | dout => exact .next h
    | status => exact .next h

/-- Whether an access stops, and how, depends on `ready` and on where the window lies only. -/
theorem serveAccess_stop_congr {a : Access} {s s' : State} (hready : s.ready = s'.ready) (hbase : s.regBase = s'.regBase)
    (hstop : ∀ t, serveAccess a s ≠ .next t) : serveAccess a s = serveAccess a s' := by
  simp only [serveAccess, hready, hbase] at hstop ⊢
  split
  · rfl
  · split
    · rfl
    · split
      · rfl
      · split
        · rfl
        · rename_i hr ht hw _ r hm
          obtain ⟨t, hnext⟩ := accessReg_completes r a.kind s
          exact absurd hnext (by simpa [hr, ht, hw, hm] using hstop t)

theorem outcomesAlike_refl (o : Host.Outcome State Fault Refusal) : OutcomesAlike o o := by
  cases o with
  | next t => exact .next ⟨rfl, rfl, rfl, rfl, rfl, rfl, rfl, rfl⟩
  | fault f => exact .fault f
  | refused r => exact .refused r

theorem serveAccess_alike {s s' : State} (h : SameToHost s s') {a : Access}
    (hc : ∀ c, a = ⟨32 * s.regBlock, 8, .write c⟩ → decode c ≠ .legal .finish) :
    OutcomesAlike (serveAccess a s) (serveAccess a s') := by
  have hready : s.ready = s'.ready := by
    obtain ⟨-, -, -, hready, -⟩ := h
    exact hready
  have hbase : s.regBase = s'.regBase := by
    obtain ⟨-, -, -, -, -, hblock, -⟩ := h
    rw [regBase_eq, regBase_eq, hblock]
  by_cases hnext : ∃ t, serveAccess a s = .next t
  · obtain ⟨t, ht⟩ := hnext
    obtain ⟨hr, r, ha, -⟩ := serveAccess_next ht
    have hreg : serveAccess a s = accessReg r a.kind s := by rw [ha]; exact serveAccess_reg r _ s hr
    have hreg' : serveAccess a s' = accessReg r a.kind s' := by
      rw [ha, hbase]; exact serveAccess_reg r _ s' (hready ▸ hr)
    rw [hreg, hreg']
    refine accessReg_alike h fun c hcmd hk => hc c ?_
    rw [ha, hcmd, hk]; rfl
  · rw [serveAccess_stop_congr hready hbase fun t ht => hnext ⟨t, ht⟩]
    exact outcomesAlike_refl _

theorem serveEvent_alike {s s' : State} (h : SameToHost s s') {e : HostEvent}
    (hc : ∀ c, e = .access ⟨32 * s.regBlock, 8, .write c⟩ → decode c ≠ .legal .finish) :
    OutcomesAlike (serveEvent e s) (serveEvent e s') := by
  cases e with
  | access a => exact serveAccess_alike h fun c ha => hc c (ha ▸ rfl)
  | reset o => exact .next (sameToHost_resetUnit h)
  | powerLoss => exact .next (sameToHost_losePower h)

theorem step_alike {s s' : State} (h : SameToHost s s')
    (hc : ∀ (c : Word) (rest : List HostEvent),
      s.pending = .access ⟨32 * s.regBlock, 8, .write c⟩ :: rest → decode c ≠ .legal .finish) :
    OutcomesAlike (step s) (step s') := by
  have hpending := pending_eq_of_sameToHost h
  cases hp : s.pending with
  | nil =>
    rw [step_idle hp, step_idle (hpending ▸ hp)]
    exact .next h
  | cons e rest =>
    rw [step_event e s rest hp, step_event e s' rest (hpending ▸ hp)]
    exact serveEvent_alike (sameToHost_pending h rest) fun c he => hc c rest (hp.trans (he ▸ rfl))

/-- Settles O25: the two steps' outcomes look the same to the host. -/
theorem engineIsHiddenUntilFinish : Obligations.EngineIsHiddenUntilFinish := by
  intro s s' h hc
  have halike := step_alike h hc
  generalize step s = o, step s' = o' at halike ⊢
  cases halike with
  | next h' =>
    refine ⟨fun t ht => ?_, nofun, nofun⟩
    cases ht
    exact ⟨_, rfl, h'⟩
  | fault f => exact ⟨nofun, fun _ => id, nofun⟩
  | refused r => exact ⟨nofun, nofun, fun _ => id⟩

/-! ## Reset, STATUS, TOTAL, several units -/

/-- Settles O6: every element is read off State.reset, and the STATUS word is that of a clear STATUS. -/
theorem stateAfterReset : Obligations.StateAfterReset :=
  ⟨rfl, rfl, rfl, rfl, rfl, rfl, rfl, rfl, rfl, rfl, by decide⟩

/-- Every bit of the STATUS word (10_state.md R28). -/
theorem toWord_getLsbD (st : Status) (j : Nat) :
    st.toWord.getLsbD j
      = (decide (j = 0) && st.err || decide (j = 1) && st.dvalid || decide (4 ≤ j) && st.ecause.getLsbD (j - 4)) := by
  simp only [Status.toWord, BitVec.getLsbD_or, BitVec.getLsbD_shiftLeft, BitVec.getLsbD_setWidth, BitVec.getLsbD_ofBool]
  by_cases hj : j < 8
  · interval_cases j <;> simp
  · have hcause : st.ecause.getLsbD (j - 4) = false := BitVec.getLsbD_of_ge _ _ (by omega)
    simp [hcause, show j ≠ 0 by omega, show j ≠ 1 by omega, show j - 1 ≠ 0 by omega]

/-- Settles O19, from the bits of the STATUS word. -/
theorem statusWordLayout : Obligations.StatusWordLayout := by
  intro s
  refine ⟨?_, ?_, ?_, ?_, ?_⟩
  · rw [readReg, toWord_getLsbD]; simp
  · rw [readReg, toWord_getLsbD]; simp
  · apply BitVec.eq_of_getLsbD_eq
    intro j hj
    simp [readReg, toWord_getLsbD, show 2 + j ≠ 1 by omega, show ¬ 4 ≤ 2 + j by omega]
  · apply BitVec.eq_of_getLsbD_eq
    intro j hj
    simp [readReg, toWord_getLsbD, hj, show 4 + j ≠ 1 by omega]
  · apply BitVec.eq_of_getLsbD_eq
    intro j hj
    have hcause : s.status.ecause.getLsbD (8 + j - 4) = false := BitVec.getLsbD_of_ge _ _ (by omega)
    simp [readReg, toWord_getLsbD, hcause, show 8 + j ≠ 1 by omega]

/-- Settles O41: WRITE's loop leaves TOTAL, and its count is taken modulo 2^64. -/
theorem totalCountsModulo : Obligations.TotalCountsModulo := by
  intro n s hn
  refine ⟨_, execWrite_legal n s hn, ?_⟩
  rw [absorb_total]
  exact total_add_len_toNat s.total n

/-- What a platform's completed step is: one step of unit k, whose next state takes its place. -/
theorem stepUnit_next {p q : Platform} {k : Nat} (h : p.stepUnit k = some (.next q)) :
    ∃ s s', p[k]? = some s ∧ step s = .next s' ∧ q = p.set k s' := by
  unfold Platform.stepUnit at h
  cases hk : p[k]? with
  | none => simp [hk] at h
  | some s =>
    cases hs : step s with
    | next s' => exact ⟨s, s', rfl, hs, by simpa [hk, hs] using h.symm⟩
    | fault f => simp [hk, hs] at h
    | refused r => simp [hk, hs] at h

/-- Settles O56: replacing unit k leaves the length and every other place of the list. -/
theorem instancesShareNothing : Obligations.InstancesShareNothing := by
  intro p q k h
  obtain ⟨s, s', hk, hs, rfl⟩ := stepUnit_next h
  have hlt : k < p.length := (List.getElem?_eq_some_iff.mp hk).choose
  exact ⟨List.length_set, fun j hj => List.getElem?_set_ne (Ne.symm hj), s, s', hk, List.getElem?_set_self hlt, hs⟩

end Sys2Proof.Machine
end

section
/-! PROOFS. The register window: which accesses stop and how, its byte view, and two hosts on one unit (20_memory.md). -/

namespace Sys2Proof.Machine

/-! ## Accesses that stop, and those that complete -/

/-- The registers fill the window: every multiple of 8 below 32 is the offset of one. -/
theorem exists_offset_of_aligned {off : Nat} (hlt : off < 32) (haligned : off % 8 = 0) : ∃ r : Reg, off = r.offset := by
  have hoff : off = 0x00 ∨ off = 0x08 ∨ off = 0x10 ∨ off = 0x18 := by omega
  rcases hoff with rfl | rfl | rfl | rfl
  · exact ⟨.cmd, rfl⟩
  · exact ⟨.din, rfl⟩
  · exact ⟨.dout, rfl⟩
  · exact ⟨.status, rfl⟩

/-- An aligned 8-byte access to the window is one to a register, and every access to a register completes. -/
theorem serveAccess_aligned_completes (a : Access) (s : State) (hr : s.ready = true) (hw : a.width = 8)
    (hlo : s.regBase ≤ a.addr) (hhi : a.addr < s.regBase + 32) (haligned : (a.addr - s.regBase) % 8 = 0) :
    ∃ t, serveAccess a s = .next t := by
  obtain ⟨r, hoff⟩ := exists_offset_of_aligned (by omega) haligned
  obtain ⟨addr, width, kind⟩ := a
  obtain rfl : width = 8 := hw
  obtain rfl : addr = s.regBase + r.offset := by simp only at hlo hoff; omega
  rw [serveAccess_reg r kind s hr]
  exact accessReg_completes r kind s

/-- Settles O16: an access that starts in the window touches it, so its width and then its alignment decide. -/
theorem malformedAccessIsRefused : Obligations.MalformedAccessIsRefused := by
  intro s a rest hr hp hlo hhi
  rw [step_event _ s rest hp]
  have htouches : a.addr < 32 * s.regBlock + 32 ∧ 32 * s.regBlock < a.addr + max a.width 1 := by omega
  have htouches8 : a.addr < 32 * s.regBlock + 32 ∧ 32 * s.regBlock < a.addr + 8 := by omega
  refine ⟨fun hw => ?_, fun hw hmisaligned => ?_, fun hw haligned => ?_⟩
  · exact serveAccess_badWidth a _ hr htouches hw
  · exact serveAccess_misaligned a _ hr hw htouches8 (.inr hmisaligned)
  · exact serveAccess_aligned_completes a _ hr hw hlo hhi haligned

/-- Settles O17: an access of at least one byte that ends below the window or starts above it does not touch it. -/
theorem accessOutsideWindowFaults : Obligations.AccessOutsideWindowFaults := by
  intro s a rest hr hp hw hout
  rw [step_event _ s rest hp]
  have hmisses : ¬ (a.addr < 32 * s.regBlock + 32 ∧ 32 * s.regBlock < a.addr + max a.width 1) := by omega
  exact serveAccess_outside a _ hr hmisses

/-! ## The byte view of the window -/

/-- Byte k of a register in the window's byte view (20_memory.md R43): k below 8 does not reach the next register. -/
theorem windowByte_reg (s : State) (r : Reg) {k : Nat} (hk : k < 8) :
    windowByte s (s.regBase + r.offset + k) = some (byteLane (readReg r s) k) := by
  have haligned : r.offset % 8 = 0 := by cases r <;> rfl
  have hreg : (s.regBase + r.offset + k - s.regBase) / 8 * 8 = r.offset := by omega
  have hbyte : (s.regBase + r.offset + k - s.regBase) % 8 = k := by omega
  rw [windowByte, if_pos (by omega), hreg, hbyte, atOffset_offset, Option.map_some]

/-- Settles O18, register by register. -/
theorem windowBytesAreLittleEndian : Obligations.WindowBytesAreLittleEndian := by
  intro s off k v hk hv
  simp only [List.mem_cons, Prod.mk.injEq, List.not_mem_nil, or_false] at hv
  rcases hv with ⟨rfl, rfl⟩ | ⟨rfl, rfl⟩ | ⟨rfl, rfl⟩ | ⟨rfl, rfl⟩
  · exact windowByte_reg s .cmd hk
  · exact windowByte_reg s .din hk
  · exact windowByte_reg s .dout hk
  · exact windowByte_reg s .status hk

/-! ## Two hosts on one unit -/

/-- The other agent's access may fall between the first agent's two. -/
theorem interleaves_between (a b c : Access) : Interleaves [[a, b], [c]] [a, c, b] :=
  .serve _ 0 a [b] _ rfl <| .serve _ 1 c [] _ rfl <| .serve _ 0 b [] _ rfl <| .done _ (by simp)

/-- The other agent's access may come before the first agent's two. -/
theorem interleaves_before (a b c : Access) : Interleaves [[a, b], [c]] [c, a, b] :=
  .serve _ 1 c [] _ rfl <| .serve _ 0 a [b] _ rfl <| .serve _ 0 b [] _ rfl <| .done _ (by simp)

/-- A step on a pending write of DIFFUSE's word, the counterpart of `step_din` for this command. -/
theorem step_diffuse (s : State) (rest : List HostEvent) (hr : s.ready = true)
    (hp : s.pending = .access ⟨32 * s.regBlock, 8, .write 0x04⟩ :: rest) :
    step s = .next (writeResult (diffuse s.din) { s with pending := rest }) := by
  have hdecode : decode 0x04 = .legal .diffuse := by decide
  rw [step_command 0x04 .diffuse s rest hr hp hdecode, exec_diffuse]

/-- DIFFUSE after two DIN writes, whoever made them, uses the later one. -/
theorem completes_diffuse_of_din_din (s : State) (x y : Word) (hr : s.ready = true) :
    ∃ t, Completes { s with pending := [.access ⟨32 * s.regBlock + 0x08, 8, .write x⟩,
        .access ⟨32 * s.regBlock + 0x08, 8, .write y⟩, .access ⟨32 * s.regBlock, 8, .write 0x04⟩] } t ∧
      t.dout = diffuse y := by
  refine runs_cons_exists (step_din x _ _ hr rfl) ?_
  refine runs_cons_exists (step_din y _ _ hr rfl) ?_
  refine runs_cons_exists (step_diffuse _ _ hr rfl) ?_
  exact runs_nil_exists rfl

/-- Settles O57: the two orders are the two placements of the other host's DIN write. -/
theorem hostsMayInterleave : Obligations.HostsMayInterleave := by
  rintro s v w d c d' hr rfl rfl rfl
  exact ⟨⟨interleaves_between _ _ _, completes_diffuse_of_din_din s v w hr⟩,
    interleaves_before _ _ _, completes_diffuse_of_din_din s w v hr⟩

end Sys2Proof.Machine
end

section
/-! PROOFS. The command word (30_encoding.md R58 to R66, R69): the decoder's checks in order, decoder and encoder inverse to
each other, the rows' matches and masks, and the legal words. -/

namespace Sys2Proof

/-! ## Decoder and encoder -/

/-- `Laws.EncodedFields`, for every command at once. -/
theorem fields_encode (i : Instr) :
    opField (encode i) = opcode i ∧ lenField (encode i) = lenOperand i ∧ rsvField (encode i) = 0 := by
  cases i with
  | init => exact Laws.EncodedFields.init
  | write len => exact Laws.EncodedFields.write len
  | finish => exact Laws.EncodedFields.finish
  | diffuse => exact Laws.EncodedFields.diffuse
  | undiffuse => exact Laws.EncodedFields.undiffuse
  | tailpack len => exact Laws.EncodedFields.tailpack len

theorem decode_encode {i : Instr} (hwf : i.WellFormed) : decode (encode i) = .legal i := by
  obtain ⟨hop, hlen, hrsv⟩ := fields_encode i
  rw [decode_legal_iff, hop, hlen]
  exact ⟨commandOf_opcode i, hrsv, (lenLegal_lenOperand i).trans hwf⟩

theorem eq_encode_iff (c : Word) (i : Instr) :
    c = encode i ↔ opField c = opcode i ∧ lenField c = lenOperand i ∧ rsvField c = 0 := by
  obtain ⟨hop, hlen, hrsv⟩ := fields_encode i
  constructor
  · rintro rfl
    exact ⟨hop, hlen, hrsv⟩
  · rintro ⟨ho, hl, hr⟩
    exact word_ext_fields _ _ (ho.trans hop.symm) (hl.trans hlen.symm) (hr.trans hrsv.symm)

/-- A word that decodes has the fields of the command's encoding, and no others. -/
theorem encode_of_decode {c : Word} {i : Instr} (hd : decode c = .legal i) : encode i = c := by
  obtain ⟨hcommand, hrsv, hlegal⟩ := (decode_legal_iff c i).mp hd
  obtain ⟨hop, hlen⟩ := opcode_of_commandOf _ _ i hcommand
  exact ((eq_encode_iff c i).mpr ⟨hop, hlen hlegal, hrsv⟩).symm

/-- Settles O3: encoding keeps the fields that decoding reads, and three fields make the word. -/
theorem decodeAndEncodeAgree : Obligations.DecodeAndEncodeAgree :=
  ⟨fun _ => decode_encode, fun _ _ hd => ⟨Machine.wellFormed_of_decode hd, encode_of_decode hd⟩⟩

theorem decode_legal_iff_encode (c : Word) (i : Instr) : decode c = .legal i ↔ i.WellFormed ∧ c = encode i :=
  ⟨fun hd => ⟨Machine.wellFormed_of_decode hd, (encode_of_decode hd).symm⟩, fun ⟨hwf, hc⟩ => hc ▸ decode_encode hwf⟩

theorem wellFormed_write_iff (len : BitVec 4) : (Instr.write len).WellFormed ↔ len.toNat ≤ 8 := decide_eq_true_iff

theorem wellFormed_tailpack_iff (len : BitVec 4) : (Instr.tailpack len).WellFormed ↔ len.toNat ≤ 7 := decide_eq_true_iff

/-! ## Matches and masks of the opcode table -/

/-- The mask of WRITE and TAILPACK (R66) keeps OP and RSV and clears LEN. -/
theorem fields_and_lenMask (c : Word) :
    opField (c &&& 0xffffffffffffff0f) = opField c ∧ lenField (c &&& 0xffffffffffffff0f) = 0 ∧
      rsvField (c &&& 0xffffffffffffff0f) = rsvField c := by
  have hop : opField 0xffffffffffffff0f = BitVec.allOnes 4 := by decide
  have hlen : lenField 0xffffffffffffff0f = 0 := by decide
  have hrsv : rsvField 0xffffffffffffff0f = BitVec.allOnes 56 := by decide
  unfold opField lenField rsvField at *
  simp only [BitVec.extractLsb'_and, hop, hlen, hrsv]
  exact ⟨BitVec.and_allOnes, BitVec.and_zero, BitVec.and_allOnes⟩

theorem fields_opcodeWord (op : BitVec 4) :
    opField (op.zeroExtend 64) = op ∧ lenField (op.zeroExtend 64) = 0 ∧ rsvField (op.zeroExtend 64) = 0 := by
  revert op; decide

/-- Agreeing with an opcode under the mask of WRITE and TAILPACK says which OP the word has and that its RSV is 0. -/
theorem and_lenMask_eq_iff (c : Word) (op : BitVec 4) :
    c &&& 0xffffffffffffff0f = op.zeroExtend 64 ↔ opField c = op ∧ rsvField c = 0 := by
  obtain ⟨hop, hlen, hrsv⟩ := fields_and_lenMask c
  obtain ⟨hop', hlen', hrsv'⟩ := fields_opcodeWord op
  constructor
  · intro h
    rw [h] at hop hrsv
    exact ⟨hop.symm.trans hop', hrsv.symm.trans hrsv'⟩
  · rintro ⟨ho, hr⟩
    exact word_ext_fields _ _ (hop.trans (ho.trans hop'.symm)) (hlen.trans hlen'.symm) (hrsv.trans (hr.trans hrsv'.symm))

/-- A row whose mask covers the whole word. -/
theorem decode_legal_iff_fullMask {i : Instr} (hwf : i.WellFormed) (c : Word) :
    decode c = .legal i ↔ c &&& 0xffffffffffffffff = encode i := by
  have hmask : c &&& 0xffffffffffffffff = c := BitVec.and_allOnes
  rw [decode_legal_iff_encode, hmask]
  exact and_iff_right hwf

/-- A row whose mask leaves out LEN: a legal LEN is the operand. -/
theorem decode_legal_iff_lenMask (c : Word) (i : Instr) :
    decode c = .legal i ↔
      c &&& 0xffffffffffffff0f = (opcode i).zeroExtend 64 ∧ lenField c = lenOperand i ∧ i.WellFormed := by
  rw [decode_legal_iff_encode, eq_encode_iff, and_lenMask_eq_iff]
  tauto

/-! ## The legal words -/

/-- The well-formed commands, in the order in which R66 lists their words. -/
def legalCommands : List Instr :=
  .init :: (List.range 9).map (fun n => .write (BitVec.ofNat 4 n)) ++
    .finish :: .diffuse :: .undiffuse :: (List.range 8).map (fun n => .tailpack (BitVec.ofNat 4 n))

theorem mem_legalCommands_iff (i : Instr) : i ∈ legalCommands ↔ i.WellFormed := by
  cases i with
  | write len => revert len; decide
  | tailpack len => revert len; decide
  | _ => decide

theorem exists_decode_legal_iff (c : Word) : (∃ i, decode c = .legal i) ↔ c ∈ legalCommands.map encode := by
  simp only [decode_legal_iff_encode, List.mem_map, mem_legalCommands_iff, eq_comm]

theorem legalCommands_words : legalCommands.map encode =
    [0x01, 0x02, 0x12, 0x22, 0x32, 0x42, 0x52, 0x62, 0x72, 0x82, 0x03, 0x04, 0x05, 0x06, 0x16, 0x26, 0x36, 0x46,
      0x56, 0x66, 0x76] := by decide

/-- Settles O1: each row by its mask, the list as the encodings of the well-formed commands, and one word per command because
a word that decodes is the encoding. -/
theorem legalWordsAreExactlyTwentyOne : Obligations.LegalWordsAreExactlyTwentyOne := by
  refine ⟨fun c => ⟨?_, ?_, ?_, ?_, fun n => ?_, fun n => ?_, ?_⟩, fun c c' i hd hd' => ?_⟩
  · exact decode_legal_iff_fullMask rfl c
  · exact decode_legal_iff_fullMask rfl c
  · exact decode_legal_iff_fullMask rfl c
  · exact decode_legal_iff_fullMask rfl c
  · rw [← wellFormed_write_iff]
    exact decode_legal_iff_lenMask c (.write n)
  · rw [← wellFormed_tailpack_iff]
    exact decode_legal_iff_lenMask c (.tailpack n)
  · rw [← legalCommands_words]
    exact exists_decode_legal_iff c
  · exact (encode_of_decode hd).symm.trans (encode_of_decode hd')

/-! ## The checks in order -/

/-- The opcode map names a command exactly for the opcodes 1 to 6, whatever LEN is (R59). -/
theorem commandOf_eq_none_iff (op len : BitVec 4) : commandOf op len = none ↔ op ∉ [(1 : BitVec 4), 2, 3, 4, 5, 6] := by
  revert op len; decide

theorem decode_illegalOp {c : Word} (h : commandOf (opField c) (lenField c) = none) : decode c = .illegal .illegalOp := by
  simp only [decode, h]

theorem decode_reservedBits {c : Word} (h : commandOf (opField c) (lenField c) ≠ none) (hrsv : rsvField c ≠ 0) :
    decode c = .illegal .reservedBits := by
  obtain ⟨i, hi⟩ := Option.ne_none_iff_exists'.mp h
  simp only [decode, hi, if_pos hrsv]

theorem decode_badLen {c : Word} {op : BitVec 4} {i : Instr} (hrsv : rsvField c = 0) (hop : opField c = op)
    (hcommand : commandOf op (lenField c) = some i) (hlen : lenLegal i (lenField c) = false) :
    decode c = .illegal .badLen := by
  simp only [decode, hop, hcommand, hrsv, hlen, ne_eq, not_true_eq_false, if_false, Bool.false_eq_true]

theorem decode_of_fields {c : Word} (i : Instr) (hwf : i.WellFormed) (hrsv : rsvField c = 0) (hop : opField c = opcode i)
    (hlen : lenField c = lenOperand i) : decode c = .legal i :=
  (decode_legal_iff_encode c i).mpr ⟨hwf, (eq_encode_iff c i).mpr ⟨hop, hlen, hrsv⟩⟩

/-- Settles O2: each clause cites the check that decides, with the facts that make it decide. -/
theorem decodeRunsChecksInOrder : Obligations.DecodeRunsChecksInOrder := by
  intro c
  refine ⟨fun hop => ?_, fun hop hrsv => ?_, fun hrsv hop hlen => ?_, fun hrsv hop hlen => ?_, fun hrsv hop hlen => ?_,
    fun hrsv hlen => ⟨fun hop => ?_, fun hop => ?_, fun hop => ?_, fun hop => ?_⟩, fun hrsv hop hlen => ?_,
    fun hrsv hop hlen => ?_⟩
  · exact decode_illegalOp ((commandOf_eq_none_iff _ _).mpr hop)
  · exact decode_reservedBits (fun hnone => (commandOf_eq_none_iff _ _).mp hnone hop) hrsv
  · have hbad : (lenField c == 0) = false := beq_false_of_ne hlen
    simp only [List.mem_cons, List.not_mem_nil, or_false] at hop
    rcases hop with hop | hop | hop | hop
    · exact decode_badLen (i := .init) hrsv hop rfl hbad
    · exact decode_badLen (i := .finish) hrsv hop rfl hbad
    · exact decode_badLen (i := .diffuse) hrsv hop rfl hbad
    · exact decode_badLen (i := .undiffuse) hrsv hop rfl hbad
  · exact decode_badLen (i := .write (lenField c)) hrsv hop rfl (decide_eq_false (Nat.not_le.mpr hlen))
  · exact decode_badLen (i := .tailpack (lenField c)) hrsv hop rfl (decide_eq_false (Nat.not_le.mpr hlen))
  · exact decode_of_fields .init rfl hrsv hop hlen
  · exact decode_of_fields .finish rfl hrsv hop hlen
  · exact decode_of_fields .diffuse rfl hrsv hop hlen
  · exact decode_of_fields .undiffuse rfl hrsv hop hlen
  · exact decode_of_fields (.write (lenField c)) ((wellFormed_write_iff _).mpr hlen) hrsv hop rfl
  · exact decode_of_fields (.tailpack (lenField c)) ((wellFormed_tailpack_iff _).mpr hlen) hrsv hop rfl

/-- Settles O4: the legal examples are encodings of well-formed commands, and each illegal one is named with the check it
fails first. -/
theorem workedEncodings : Obligations.WorkedEncodings := by
  refine ⟨⟨rfl, ?_⟩, ⟨rfl, ?_⟩, ⟨rfl, ?_⟩, ⟨rfl, ?_⟩, ?_, ?_, ?_⟩
  · exact decode_encode (i := .write 8) rfl
  · exact decode_encode (i := .write 2) rfl
  · exact decode_encode (i := .tailpack 3) rfl
  · exact decode_encode (i := .finish) rfl
  · exact decode_badLen (op := 2) (i := .write 9) rfl rfl rfl rfl
  · exact decode_reservedBits (by decide) (by decide)
  · exact decode_illegalOp rfl

end Sys2Proof
end

section
/-! PROOFS. Host accesses and host programs (30_encoding.md R55 to R58, R60, R67, R68): what a step on each access to a
register does, which access each line is, and what the lines of `absorb` do. -/

namespace Sys2Proof.Machine

/-! ## The registers of the window -/

/-- Settles O11, register by register. -/
theorem windowReadsReturnRegisters : Obligations.WindowReadsReturnRegisters := by
  intro s off v rest hv hr hp
  simp only [List.mem_cons, Prod.mk.injEq, List.not_mem_nil, or_false] at hv
  rcases hv with ⟨rfl, rfl⟩ | ⟨rfl, rfl⟩ | ⟨rfl, rfl⟩ | ⟨rfl, rfl⟩
  · exact step_access .cmd .read s rest hr hp
  · exact step_access .din .read s rest hr hp
  · exact step_access .dout .read s rest hr hp
  · exact step_access .status .read s rest hr hp

/-- Settles O12: the step on a DIN write is the stored value and no more. -/
theorem dinWriteStoresOnlyDin : Obligations.DinWriteStoresOnlyDin :=
  fun s v rest hr hp => step_din v s rest hr hp

/-- Settles O13, access by access. -/
theorem ignoredWritesAndZeroRead : Obligations.IgnoredWritesAndZeroRead := by
  intro s v rest hr
  refine ⟨fun hp => ?_, fun hp => ?_, fun hp => ?_⟩
  · exact step_access .dout (.write v) s rest hr hp
  · exact step_access .status (.write v) s rest hr hp
  · exact step_access .cmd .read s rest hr hp

/-- Settles O14: CMD at offset 0 takes the word, and a legal word runs its command. -/
theorem stepRunsDecodedCommand : Obligations.StepRunsDecodedCommand :=
  fun s c i rest hr hp hd => step_command c i s rest hr hp hd

/-- Settles O40: both commands then take the illegal-command action with code 3. -/
theorem illegalLenRecordsBadLen : Obligations.IllegalLenRecordsBadLen :=
  fun s n => ⟨execWrite_illegal n s, execTailpack_illegal n s⟩

/-! ## The lines of a host program -/

theorem zeroExtend_ofNat_len {n : Nat} (hn : n < 16) : (BitVec.ofNat 4 n).zeroExtend 64 = BitVec.ofNat 64 n := by
  apply BitVec.eq_of_toNat_eq
  simp only [BitVec.truncate_eq_setWidth, BitVec.toNat_setWidth, BitVec.toNat_ofNat]
  omega

/-- R67's word of `write n` is the encoding of WRITE with LEN = n. -/
theorem access_write (s : State) {n : Nat} (hn : n ≤ 8) :
    AsmLine.access s (.write n) = some ⟨32 * s.regBlock, 8, .write (encode (.write (BitVec.ofNat 4 n)))⟩ := by
  simp only [encode, opcode, lenOperand, zeroExtend_ofNat_len (show n < 16 by omega)]
  exact if_pos hn

/-- R67's word of `tailpack n` is the encoding of TAILPACK with LEN = n. -/
theorem access_tailpack (s : State) {n : Nat} (hn : n ≤ 7) :
    AsmLine.access s (.tailpack n) = some ⟨32 * s.regBlock, 8, .write (encode (.tailpack (BitVec.ofNat 4 n)))⟩ := by
  simp only [encode, opcode, lenOperand, zeroExtend_ofNat_len (show n < 16 by omega)]
  exact if_pos hn

/-- Settles O5: the lines with a count by the two lemmas above and the bound the assembler checks, the others by
definition. -/
theorem hostLinesAreAccesses : Obligations.HostLinesAreAccesses := by
  intro s
  refine ⟨fun v => rfl, rfl, rfl, rfl, rfl, fun n hn => access_write s hn, fun n hn => access_tailpack s hn,
    fun n hn => ?_, fun n hn => ?_, fun c => rfl, rfl, rfl⟩
  · exact if_neg (Nat.not_le.mpr hn)
  · exact if_neg (Nat.not_le.mpr hn)

/-! ## Runs in two parts -/

theorem runs_add {j k : Nat} {s u t : State} (hj : Runs j s u) (hk : Runs k u t) : Runs (j + k) s t := by
  induction j generalizing s with
  | zero =>
    obtain rfl := (runs_zero_iff s u).mp hj
    rwa [Nat.zero_add]
  | succ j ih =>
    obtain ⟨s', hstep, hrest⟩ := (runs_succ_iff j s u).mp hj
    rw [Nat.succ_add]
    exact runs_cons hstep (ih hrest)

/-- The bytes accepted along a run are those accepted along its second part, after those of its first. -/
theorem acceptedAlong_add {j : Nat} (k : Nat) {S : List Byte} {s u : State} (hj : Runs j s u) :
    acceptedAlong (j + k) S s = acceptedAlong k (acceptedAlong j S s) u := by
  induction j generalizing s S with
  | zero =>
    obtain rfl := (runs_zero_iff s u).mp hj
    rw [Nat.zero_add]; rfl
  | succ j ih =>
    obtain ⟨s', hstep, hrest⟩ := (runs_succ_iff j s u).mp hj
    rw [Nat.succ_add]
    cases hp : s.pending with
    | nil => simp only [acceptedAlong, hp, hstep, ih hrest]
    | cons e rest => simp only [acceptedAlong_cons _ S hp hstep, ih hrest]

/-! ## The pseudo-instruction absorb -/

/-- In `k` steps the unit `u`, whose engine holds `S`, accepts exactly `bytes`, and is then at `t` with the events `rest` to
come; STATUS, the window and readiness stay. -/
structure Absorbs (k : Nat) (S bytes : List Byte) (rest : List HostEvent) (u t : State) : Prop where
  runs : Runs k u t
  accepted : acceptedAlong k S u = S ++ bytes
  engine : EngineHolds (S ++ bytes) t
  pending : t.pending = rest
  ready : t.ready = true
  regBlock : t.regBlock = u.regBlock
  status : t.status = u.status

theorem absorbs_nil {S : List Byte} {u : State} (hr : u.ready = true) (hS : EngineHolds S u) :
    Absorbs 0 S [] u.pending u u where
  runs := (runs_zero_iff u u).mpr rfl
  accepted := (List.append_nil S).symm
  engine := (List.append_nil S).symm ▸ hS
  pending := rfl
  ready := hr
  regBlock := rfl
  status := rfl

theorem Absorbs.trans {j k : Nat} {S x y : List Byte} {mid rest : List HostEvent} {u v t : State}
    (h : Absorbs j S x mid u v) (h' : Absorbs k (S ++ x) y rest v t) : Absorbs (j + k) S (x ++ y) rest u t where
  runs := runs_add h.runs h'.runs
  accepted := by rw [acceptedAlong_add k h.runs, h.accepted, h'.accepted, List.append_assoc]
  engine := List.append_assoc S x y ▸ h'.engine
  pending := h'.pending
  ready := h'.ready
  regBlock := h'.regBlock.trans h.regBlock
  status := h'.status.trans h.status

/-- One step on an event that adds `bytes` to those accepted; the engine follows by what every step keeps. -/
theorem absorbs_step {S bytes : List Byte} {e : HostEvent} {rest : List HostEvent} {u t : State} (hr : u.ready = true)
    (hS : EngineHolds S u) (hp : u.pending = e :: rest) (hstep : step u = .next t)
    (haccept : acceptedAfter S u e = S ++ bytes) (hpending : t.pending = rest) (hready : t.ready = u.ready)
    (hblock : t.regBlock = u.regBlock) (hstatus : t.status = u.status) : Absorbs 1 S bytes rest u t where
  runs := runs_cons hstep ((runs_zero_iff t t).mpr rfl)
  accepted := (acceptedAlong_cons 0 S hp hstep).trans haccept
  engine := haccept ▸ stepKeepsEngineExact S u t e rest (fun _ => hS) hp hstep (hready.trans hr)
  pending := hpending
  ready := hready.trans hr
  regBlock := hblock
  status := hstatus

/-- A write to DIN accepts nothing. -/
theorem absorbs_din {S : List Byte} {v : Word} {rest : List HostEvent} {u : State} (hr : u.ready = true)
    (hS : EngineHolds S u) (hp : u.pending = .access ⟨32 * u.regBlock + 0x08, 8, .write v⟩ :: rest) :
    Absorbs 1 S [] rest u { u with pending := rest, din := v } := by
  have hnone := acceptedAfter_noCommand S u _ (command_otherWrite u .din v (by decide))
  exact absorbs_step hr hS hp (step_din v u rest hr hp) (hnone.trans (List.append_nil S).symm) rfl rfl rfl rfl

/-- A WRITE accepts its byte lanes of DIN. -/
theorem absorbs_write {S : List Byte} {n : Nat} {rest : List HostEvent} {u : State} (hn : n ≤ 8) (hr : u.ready = true)
    (hS : EngineHolds S u)
    (hp : u.pending = .access ⟨32 * u.regBlock, 8, .write (encode (.write (BitVec.ofNat 4 n)))⟩ :: rest) :
    ∃ t, Absorbs 1 S (byteLanes n u.din) rest u t := by
  have hlen : (BitVec.ofNat 4 n).toNat = n := by rw [BitVec.toNat_ofNat]; omega
  have hdecode := decode_encode ((wellFormed_write_iff (BitVec.ofNat 4 n)).mpr (by omega))
  have hstep := step_command _ _ u rest hr hp hdecode
  rw [execWrite_legal _ _ (by omega)] at hstep
  have haccept := acceptedAfter_write S u hdecode
  rw [hlen] at haccept
  exact ⟨_, absorbs_step hr hS hp hstep haccept (by simp) (by simp) (by simp) (by simp)⟩

/-- The two accesses of one chunk of `absorb` (R68), on the unit `s`: the bytes go to DIN, then WRITE takes them. -/
def chunkEvents (s : State) (chunk : List Byte) : List HostEvent :=
  [.access ⟨32 * s.regBlock + 0x08, 8, .write (le64 chunk)⟩,
    .access ⟨32 * s.regBlock, 8, .write (encode (.write (BitVec.ofNat 4 chunk.length)))⟩]

/-- WRITE takes the chunk back out of the byte lanes it was packed into. -/
theorem absorbs_chunk {S chunk : List Byte} {rest : List HostEvent} {u : State} (hlen : chunk.length ≤ 8)
    (hr : u.ready = true) (hS : EngineHolds S u) (hp : u.pending = chunkEvents u chunk ++ rest) :
    ∃ t, Absorbs 2 S chunk rest u t := by
  have hdin := absorbs_din hr hS hp
  obtain ⟨t, hwrite⟩ := absorbs_write hlen hdin.ready hdin.engine rfl
  rw [byteLanes_le64 chunk hlen] at hwrite
  exact ⟨t, hdin.trans hwrite⟩

/-! ### Its lines, chunk by chunk -/

/-- Chunk j + 1 of a sequence is chunk j of the sequence without its first 8 bytes. -/
theorem slice_drop_block (bytes : List Byte) (j : Nat) :
    slice bytes (8 * (j + 1)) (min (8 * (j + 1) + 8) bytes.length) =
      slice (bytes.drop 8) (8 * j) (min (8 * j + 8) (bytes.drop 8).length) := by
  have hlo : 8 * (j + 1) = 8 + 8 * j := by omega
  have hcount : min (8 * (j + 1) + 8) bytes.length - 8 * (j + 1) = min (8 * j + 8) (bytes.length - 8) - 8 * j := by omega
  rw [slice, slice, List.drop_drop, List.length_drop, hcount, hlo]

theorem absorbLines_chunk {bytes : List Byte} (hne : bytes ≠ []) :
    absorbLines bytes =
      .din (le64 (bytes.take 8)) :: .write (bytes.take 8).length :: absorbLines (bytes.drop 8) := by
  have hpos := List.length_pos_iff.mpr hne
  have hcount : (bytes.length + 7) / 8 = ((bytes.drop 8).length + 7) / 8 + 1 := by
    rw [List.length_drop]; omega
  have hfirst : slice bytes (8 * 0) (min (8 * 0 + 8) bytes.length) = bytes.take 8 := by
    simp [slice, List.take_eq_take_min]
  have hrest (j : Nat) : bytes.length - 8 * (j + 1) = (bytes.drop 8).length - 8 * j := by
    rw [List.length_drop]; omega
  unfold absorbLines
  rw [hcount, List.range_succ_eq_map, List.flatMap_cons, hfirst, List.length_take, List.flatMap_map]
  simp only [slice_drop_block, hrest]
  rfl

theorem assemble_cons {s : State} {line : AsmLine} {lines : List AsmLine} {a : Access} {events : List HostEvent}
    (hline : line.access s = some a) (hlines : assemble s lines = some events) :
    assemble s (line :: lines) = some (.access a :: events) := by
  unfold assemble at hlines ⊢
  simp [List.mapM_cons, hline, hlines]

/-- Chunks of at most 8 bytes are never rejected. -/
theorem assemble_absorbLines_chunk {s : State} {bytes : List Byte} {events : List HostEvent} (hne : bytes ≠ [])
    (h : assemble s (absorbLines (bytes.drop 8)) = some events) :
    assemble s (absorbLines bytes) = some (chunkEvents s (bytes.take 8) ++ events) := by
  rw [absorbLines_chunk hne]
  exact assemble_cons rfl (assemble_cons (access_write s (List.length_take_le 8 bytes)) h)

/-- `absorb`, assembled for a unit `s`, does what it says on every unit at the same window that holds `S`, whatever stands
behind its events: by induction on the chunks. -/
theorem assemble_absorbLines (s : State) (bytes : List Byte) :
    ∃ events, assemble s (absorbLines bytes) = some events ∧
      ∀ (S : List Byte) (rest : List HostEvent) (u : State), u.ready = true → u.regBlock = s.regBlock →
        EngineHolds S u → u.pending = events ++ rest → ∃ t, Absorbs events.length S bytes rest u t := by
  by_cases hne : bytes = []
  · subst hne
    refine ⟨[], rfl, fun S rest u hr _ hS hp => ⟨u, ?_⟩⟩
    obtain rfl : u.pending = rest := hp
    exact absorbs_nil hr hS
  · have hshorter : (bytes.drop 8).length < bytes.length := by
      have := List.length_pos_iff.mpr hne
      rw [List.length_drop]; omega
    obtain ⟨events, hassemble, habsorbs⟩ := assemble_absorbLines s (bytes.drop 8)
    refine ⟨_, assemble_absorbLines_chunk hne hassemble, fun S rest u hr hblock hS hp => ?_⟩
    have hp' : u.pending = chunkEvents u (bytes.take 8) ++ (events ++ rest) := by
      rw [hp, List.append_assoc, chunkEvents, chunkEvents, hblock]
    obtain ⟨v, hchunk⟩ := absorbs_chunk (List.length_take_le 8 bytes) hr hS hp'
    obtain ⟨t, hrest⟩ := habsorbs _ rest v hchunk.ready (hchunk.regBlock.trans hblock) hchunk.engine hchunk.pending
    have hboth := hchunk.trans hrest
    rw [List.take_append_drop] at hboth
    exact ⟨t, List.length_append ▸ hboth⟩
termination_by bytes.length

/-- Settles O55: the events of `absorb` on the unit itself, with nothing behind them. -/
theorem absorbAcceptsItsBytes : Obligations.AbsorbAcceptsItsBytes := by
  intro s S bytes hr hS
  obtain ⟨events, hassemble, habsorbs⟩ := assemble_absorbLines s bytes
  obtain ⟨t, ht⟩ := habsorbs S [] { s with pending := events } hr rfl hS (List.append_nil events).symm
  exact ⟨events, t, hassemble, ht.runs, ht.accepted, ht.engine⟩

end Sys2Proof.Machine
end

section
/-! PROOFS. The mixer and the diffusion commands (40_diffusion.md): the xor-shift step, the inverse multiplier, DIFFUSE and
UNDIFFUSE, and what every command leaves unchanged. -/

namespace Sys2Proof.Machine

/-! ## The xor-shift step -/

/-- The step with its windows written out (40_diffusion.md R77). -/
theorem xorShift_eq (x : Word) : xorShift x = x ^^^ ((x >>> (32 : Nat)) >>> (x >>> (60 : Nat))) := rfl

/-- The term of the xor-shift step is shifted right by 32 at least (40_diffusion.md R82). -/
theorem xorShift_term_toNat_lt (x : Word) : ((x >>> (32 : Nat)) >>> (x >>> (60 : Nat))).toNat < 2 ^ 32 := by
  have hwide : (x >>> (32 : Nat)).toNat < 2 ^ 32 := BitVec.toNat_ushiftRight_lt x 32 (by decide)
  rw [BitVec.ushiftRight_eq', BitVec.toNat_ushiftRight]
  exact Nat.lt_of_le_of_lt (Nat.shiftRight_le _ _) hwide

/-- The upper half of a word passes the xor-shift step, because the term stays below it. -/
theorem xorShift_upper (x : Word) : xorShift x >>> (32 : Nat) = x >>> (32 : Nat) := by
  have hterm : ((x >>> (32 : Nat)) >>> (x >>> (60 : Nat))) >>> (32 : Nat) = 0 := by
    apply BitVec.eq_of_toNat_eq
    rw [BitVec.toNat_ushiftRight, Nat.shiftRight_eq_zero _ _ (xorShift_term_toNat_lt x)]
    rfl
  rw [xorShift_eq, BitVec.ushiftRight_xor_distrib, hterm]
  exact BitVec.xor_zero

/-- So the step sees the same term the second time, and XORs it away. -/
theorem xorShift_xorShift (x : Word) : xorShift (xorShift x) = x := by
  have hnibble (y : Word) : y >>> (60 : Nat) = y >>> (32 : Nat) >>> (28 : Nat) := BitVec.shiftRight_add y 32 28
  calc xorShift (xorShift x)
    _ = xorShift x ^^^ ((xorShift x >>> (32 : Nat)) >>> (xorShift x >>> (60 : Nat))) := xorShift_eq (xorShift x)
    _ = xorShift x ^^^ ((x >>> (32 : Nat)) >>> (x >>> (60 : Nat))) := by
      rw [hnibble (xorShift x), xorShift_upper, ← hnibble x]
    _ = x := xor_cancel_right x _

/-- Settles O30: the term stays below the upper half, from which it is computed. -/
theorem xorShiftIsInvolution : Obligations.XorShiftIsInvolution := by
  intro x
  refine ⟨xorShift_eq x, ?_, xorShift_term_toNat_lt x, xorShift_xorShift x⟩
  rw [← BitVec.setWidth_ushiftRight_eq_extractLsb, xorShift_upper, BitVec.setWidth_ushiftRight_eq_extractLsb]

/-! ## The inverse multiplier, and diffuse and undiffuse -/

theorem K_mul_KInv : K * KInv = 1 := by decide

theorem KInv_mul_K_mul (x : Word) : KInv * (K * x) = x := by
  rw [← BitVec.mul_assoc, BitVec.mul_comm KInv K, K_mul_KInv]
  exact BitVec.one_mul x

theorem K_mul_KInv_mul (x : Word) : K * (KInv * x) = x := by
  rw [← BitVec.mul_assoc, K_mul_KInv]
  exact BitVec.one_mul x

/-- Settles O29: an x with K * x = 1 is K_INV * (K * x). -/
theorem inverseMultiplierIsUnique : Obligations.InverseMultiplierIsUnique := by
  refine ⟨K_mul_KInv, rfl, rfl, fun x hx => ?_⟩
  calc x
    _ = KInv * (K * x) := (KInv_mul_K_mul x).symm
    _ = KInv * 1 := by rw [hx]
    _ = KInv := BitVec.mul_one KInv

theorem undiffuse_diffuse (x : Word) : undiffuse (diffuse x) = x := by
  rw [undiffuse, diffuse, KInv_mul_K_mul, xorShift_xorShift, KInv_mul_K_mul]

theorem diffuse_undiffuse (x : Word) : diffuse (undiffuse x) = x := by
  rw [undiffuse, diffuse, K_mul_KInv_mul, xorShift_xorShift, K_mul_KInv_mul]

/-- Settles O31: the multipliers cancel, then the two xor-shift steps, then the multipliers again. -/
theorem diffuseAndUndiffuseAreInverse : Obligations.DiffuseAndUndiffuseAreInverse := by
  refine ⟨fun x => ⟨undiffuse_diffuse x, diffuse_undiffuse x⟩, ?_, ?_⟩
  · exact Function.bijective_iff_has_inverse.mpr ⟨undiffuse, undiffuse_diffuse, diffuse_undiffuse⟩
  · exact Function.bijective_iff_has_inverse.mpr ⟨diffuse, diffuse_undiffuse, undiffuse_diffuse⟩

theorem diffuse_zero : diffuse 0 = 0 := by decide

theorem diffuse_one : diffuse 1 = 15197155197312260123 := by decide

theorem undiffuse_zero : undiffuse 0 = 0 := by
  have h := undiffuse_diffuse 0
  rwa [diffuse_zero] at h

/-- Settles O28: the spec's vectors, evaluated. -/
theorem mixerSourceVectors : Obligations.MixerSourceVectors :=
  ⟨rfl, rfl, rfl, diffuse_zero, diffuse_one, by decide, by decide⟩

/-- Settles O32: the second application to 1 gives another word. -/
theorem diffuseIsNotSelfInverse : Obligations.DiffuseIsNotSelfInverse := by
  have htwice : diffuse (diffuse 1) = 12480813483392000699 := by rw [diffuse_one]; decide
  exact ⟨htwice, htwice ▸ by decide, diffuse_zero, undiffuse_zero⟩

/-! ## DIFFUSE and UNDIFFUSE -/

/-- A word whose OP names the command i and that is not i's encoding fails the check of RSV or, past it, of LEN
(30_encoding.md R62). -/
theorem decode_of_ne_encode {c : Word} {op : BitVec 4} {i : Instr} (hop : opField c = op)
    (hcommand : commandOf op (lenField c) = some i) (hne : c ≠ encode i) :
    decode c = .illegal (if rsvField c = 0 then .badLen else .reservedBits) := by
  subst hop
  have hillegal : decode c ≠ .legal i := fun hd => hne (encode_of_decode hd).symm
  by_cases hrsv : rsvField c = 0
  · rw [if_pos hrsv]
    refine decode_badLen hrsv rfl hcommand (Bool.eq_false_iff.mpr fun hlen => hillegal ?_)
    exact (decode_legal_iff c i).mpr ⟨hcommand, hrsv, hlen⟩
  · rw [if_neg hrsv]
    exact decode_reservedBits (by rw [hcommand]; exact Option.some_ne_none i) hrsv

theorem topNibble_toNat_le (p : Word) : (p >>> (60 : Nat)).toNat ≤ 15 :=
  Nat.le_of_lt_succ (BitVec.toNat_ushiftRight_lt p 60 (by decide))

/-- With a top nibble of 0 the shift is by 0. -/
theorem ushiftRight_topNibble_of_zero {p : Word} (h : p.extractLsb' 60 4 = 0) (a : Word) :
    a >>> (p >>> (60 : Nat)) = a := by
  have hnibble : ((p >>> (60 : Nat)).setWidth 4).toNat = 0 := by
    rw [BitVec.setWidth_ushiftRight_eq_extractLsb, h]; rfl
  have hshift : (p >>> (60 : Nat)).toNat = 0 := by
    rwa [BitVec.toNat_setWidth, Nat.mod_eq_of_lt (Nat.lt_succ_of_le (topNibble_toNat_le p))] at hnibble
  rw [BitVec.ushiftRight_eq', hshift, BitVec.ushiftRight_zero]

/-- Settles O26: the word by the decoder's checks, the effect by `exec_diffuse`, and the corners by the mixer's values. -/
theorem diffuseCommand : Obligations.DiffuseCommand := by
  refine ⟨⟨rfl, decode_encode (i := .diffuse) rfl, fun c hop hne => ?_⟩, ?_, fun s => ⟨fun hdin => ?_, fun hdin => ?_⟩⟩
  · exact decode_of_ne_encode (i := .diffuse) hop rfl hne
  · rintro s x p a q rfl rfl rfl rfl
    exact ⟨exec_diffuse s, fun h => by rw [ushiftRight_topNibble_of_zero h], topNibble_toNat_le _⟩
  · exact ⟨_, exec_diffuse s, by rw [writeResult_dout, hdin, diffuse_zero]⟩
  · exact ⟨_, exec_diffuse s, by rw [writeResult_dout, hdin, diffuse_one], by rw [writeResult_dout, hdin, diffuse_one]⟩

/-- Settles O27 in the same way; that DIN = diffuse v gives v back is `undiffuse_diffuse`, and so is the last corner, as
`diffuse_one` says which word it is. -/
theorem undiffuseCommand : Obligations.UndiffuseCommand := by
  refine ⟨⟨rfl, decode_encode (i := .undiffuse) rfl, fun c hop hne => ?_⟩, ?_,
    fun s => ⟨fun hdin => ?_, fun v hdin => ?_, fun hdin => ?_⟩⟩
  · exact decode_of_ne_encode (i := .undiffuse) hop rfl hne
  · rintro s x p a q rfl rfl rfl rfl
    exact exec_undiffuse s
  · exact ⟨_, exec_undiffuse s, by rw [writeResult_dout, hdin, undiffuse_zero]⟩
  · exact ⟨_, exec_undiffuse s, by rw [writeResult_dout, hdin, undiffuse_diffuse]⟩
  · exact ⟨_, exec_undiffuse s, by rw [writeResult_dout, hdin, ← diffuse_one, undiffuse_diffuse]⟩

/-- A step on a pending write of UNDIFFUSE's word, the counterpart of `step_diffuse`. -/
theorem step_undiffuse (s : State) (rest : List HostEvent) (hr : s.ready = true)
    (hp : s.pending = .access ⟨32 * s.regBlock, 8, .write 0x05⟩ :: rest) :
    step s = .next (writeResult (undiffuse s.din) { s with pending := rest }) := by
  have hdecode : decode 0x05 = .legal .undiffuse := by decide
  rw [step_command 0x05 .undiffuse s rest hr hp hdecode, exec_undiffuse]

/-- Settles O33, step by step; what the read returns is undiffuse (diffuse v). -/
theorem diffusionRoundTripOnUnit : Obligations.DiffusionRoundTripOnUnit := by
  intro s v rest hr hp
  refine runs_cons_exists (step_din v s _ hr hp) ?_
  refine runs_cons_exists (step_diffuse _ _ hr rfl) ?_
  refine runs_cons_exists (step_din (diffuse v) _ _ hr rfl) ?_
  refine runs_cons_exists (step_undiffuse _ _ hr rfl) ?_
  refine runs_cons_exists (step_readDout _ _ hr rfl) ?_
  exact runs_nil_exists ⟨congrArg (· :: s.readLog) (undiffuse_diffuse v), ⟨rfl, rfl, rfl, rfl⟩, rfl⟩

/-! ## What every command leaves unchanged -/

/-- No command writes DIN or anything outside the unit. -/
theorem exec_host_frame {i : Instr} {s t : State} (h : exec i s = .next t) :
    t.din = s.din ∧ t.ready = s.ready ∧ t.powerLosses = s.powerLosses ∧ t.regBlock = s.regBlock ∧
      t.pending = s.pending ∧ t.readLog = s.readLog := by
  rcases exec_cases h with ⟨-, rfl⟩ | ⟨len, -, -, rfl⟩ | ⟨v, rfl, -⟩ | ⟨-, rfl⟩
  · exact ⟨rfl, rfl, rfl, rfl, rfl, rfl⟩
  · simp
  · exact ⟨rfl, rfl, rfl, rfl, rfl, rfl⟩
  · exact ⟨rfl, rfl, rfl, rfl, rfl, rfl⟩

/-- The four commands that write DOUT leave the engine as it is, and so does the error a LEN no legal word has records. -/
theorem exec_result_sameEngine {i : Instr} {s t : State} (h : exec i s = .next t) (hi : IsResult i) : SameEngine s t := by
  rcases exec_cases h with ⟨rfl, -⟩ | ⟨len, rfl, -⟩ | ⟨v, rfl, -⟩ | ⟨-, rfl⟩
  · simp [IsResult] at hi
  · simp [IsResult] at hi
  · exact ⟨rfl, rfl, rfl, rfl⟩
  · exact ⟨rfl, rfl, rfl, rfl⟩

/-- INIT and a legal WRITE leave what every register reads as. -/
theorem exec_engine_readReg {i : Instr} {s t : State} (h : exec i s = .next t) (hwf : i.WellFormed)
    (hi : i = .init ∨ ∃ n, i = .write n) (r : Reg) : readReg r t = readReg r s := by
  rcases hi with rfl | ⟨n, rfl⟩
  · obtain rfl := Host.Outcome.next.inj h
    cases r <;> rfl
  · rw [execWrite_legal n s ((wellFormed_write_iff n).mp hwf)] at h
    obtain rfl := Host.Outcome.next.inj h
    cases r <;> simp [readReg]

/-- A byte of the window is a byte of the register it lies in. -/
theorem windowByte_congr {s t : State} {addr : Nat} (hblock : t.regBlock = s.regBlock)
    (hreg : ∀ r : Reg, (addr - 32 * s.regBlock) / 8 * 8 = r.offset → readReg r t = readReg r s) :
    windowByte t addr = windowByte s addr := by
  unfold windowByte
  rw [regBase_eq, regBase_eq, hblock]
  split
  · cases hr : Reg.atOffset ((addr - 32 * s.regBlock) / 8 * 8) with
    | none => rfl
    | some r => simp only [Option.map_some, hreg r (atOffset_eq_some hr)]
  · rfl

/-- CMD reads as 0 and DIN stays, so only bytes in the 16 of DOUT and STATUS can change. -/
theorem windowByte_eq_of_din {s t : State} {addr : Nat} (hblock : t.regBlock = s.regBlock) (hdin : t.din = s.din)
    (hout : ¬ (32 * s.regBlock + 0x10 ≤ addr ∧ addr < 32 * s.regBlock + 0x20)) :
    windowByte t addr = windowByte s addr := by
  refine windowByte_congr hblock fun r hr => ?_
  cases r with
  | cmd => rfl
  | din => exact hdin
  | dout => simp only [Reg.offset] at hr; omega
  | status => simp only [Reg.offset] at hr; omega

/-- Settles O49, from the frame of a command and the registers that hold the window's bytes. -/
theorem commandFrames : Obligations.CommandFrames := by
  intro i s t h
  obtain ⟨hdin, hready, hlosses, hblock, hpending, hlog⟩ := exec_host_frame h
  refine ⟨hdin, hready, hlosses, hblock, hpending, hlog, fun addr hout => ?_, fun hwf hi addr => ?_, fun hi => ?_⟩
  · exact windowByte_eq_of_din hblock hdin hout
  · exact windowByte_congr hblock fun r _ => exec_engine_readReg h hwf hi r
  · exact exec_result_sameEngine h hi

end Sys2Proof.Machine
end

section
/-! PROOFS. The tail packer and TAILPACK (41_tail_packer.md): packing a word's byte lanes masks the word, and packing places
every byte of a sequence in its lane. -/

namespace Sys2Proof.Machine

/-! ## Packing the byte lanes of a word -/

theorem toNat_lowMask {n : Nat} (hn : n ≤ 7) : (BitVec.ofNat 64 (2 ^ (8 * n) - 1)).toNat = 2 ^ (8 * n) - 1 := by
  have hle : 2 ^ (8 * n) ≤ 2 ^ 64 := Nat.pow_le_pow_right (by decide) (by omega)
  rw [BitVec.toNat_ofNat, Nat.mod_eq_of_lt (by omega)]

/-- Bit by bit: both sides keep the bits below 8 * n. -/
theorem tailpack_byteLanes {n : Nat} (hn : n ≤ 7) (v : Word) :
    tailpack (byteLanes n v) = v &&& BitVec.ofNat 64 (2 ^ (8 * n) - 1) := by
  apply BitVec.eq_of_getLsbD_eq
  intro j _
  have hmask : (BitVec.ofNat 64 (2 ^ (8 * n) - 1)).getLsbD j = decide (j < 8 * n) := by
    rw [← BitVec.testBit_toNat, toNat_lowMask hn, Nat.testBit_two_pow_sub_one]
  rw [tailpack, le64_byteLanes_getLsbD, BitVec.getLsbD_and, hmask, Bool.and_comm]

theorem toNat_tailpack_byteLanes {n : Nat} (hn : n ≤ 7) (v : Word) :
    (tailpack (byteLanes n v)).toNat = v.toNat % 2 ^ (8 * n) := by
  rw [tailpack_byteLanes hn, BitVec.toNat_and, toNat_lowMask hn, Nat.and_two_pow_sub_one_eq_mod]

/-- TAILPACK n masks DIN (41_tail_packer.md R92). -/
theorem exec_tailpack_dout {n : BitVec 4} (hn : n.toNat ≤ 7) (s : State) :
    ∃ t, exec (.tailpack n) s = .next t ∧ t.dout = s.din &&& BitVec.ofNat 64 (2 ^ (8 * n.toNat) - 1) :=
  ⟨_, execTailpack_legal n s hn, tailpack_byteLanes hn s.din⟩

/-- The mask of n = 0 is 0. -/
theorem exec_tailpack_zero_dout (s : State) : ∃ t, exec (.tailpack 0) s = .next t ∧ t.dout = 0 := by
  obtain ⟨t, ht, hdout⟩ := exec_tailpack_dout (n := 0) (by decide) s
  exact ⟨t, ht, hdout.trans BitVec.and_zero⟩

theorem exec_tailpack_seven_dout (s : State) :
    ∃ t, exec (.tailpack 7) s = .next t ∧ t.dout = s.din &&& 0x00ffffffffffffff :=
  exec_tailpack_dout (n := 7) (by decide) s

/-- Settles O35: the mask of any n, and its values for the two corners. -/
theorem tailpackMasksDin : Obligations.TailpackMasksDin := by
  intro n s hn
  refine ⟨exec_tailpack_dout hn s, ?_, ?_⟩
  · rintro rfl
    exact exec_tailpack_zero_dout s
  · rintro rfl
    exact exec_tailpack_seven_dout s

/-! ## Packing a sequence -/

theorem byteLanes_tailpack {bytes : List Byte} (h : bytes.length ≤ 7) :
    byteLanes bytes.length (tailpack bytes) = bytes :=
  byteLanes_le64 bytes (by omega)

theorem byteLane_tailpack {bytes : List Byte} (h : bytes.length ≤ 7) {i : Nat} (hi : i < bytes.length) :
    byteLane (tailpack bytes) i = bytes[i] := by
  have hlane : (byteLanes bytes.length (tailpack bytes))[i]? = some (byteLane (tailpack bytes) i) := by
    simp [byteLanes, hi]
  rw [byteLanes_tailpack h, List.getElem?_eq_getElem hi] at hlane
  exact (Option.some.inj hlane).symm

/-- A packed sequence is the packing of its own byte lanes, which is below 2^(8 * length). -/
theorem tailpack_toNat_lt {bytes : List Byte} (h : bytes.length ≤ 7) :
    (tailpack bytes).toNat < 2 ^ (8 * bytes.length) := by
  have hmod := toNat_tailpack_byteLanes h (tailpack bytes)
  rw [byteLanes_tailpack h] at hmod
  rw [hmod]
  exact Nat.mod_lt _ (Nat.two_pow_pos _)

/-- Settles O36: the lanes hold the bytes, and a value below 2^(8 * length) has no higher bit. -/
theorem tailpackPlacesBytes : Obligations.TailpackPlacesBytes := by
  intro bytes h
  refine ⟨fun i hi => byteLane_tailpack h hi, fun j hj => ?_, ?_⟩
  · have hlt : (tailpack bytes).toNat < 2 ^ j :=
      (tailpack_toNat_lt h).trans_le (Nat.pow_le_pow_right (by decide) hj)
    rw [← BitVec.testBit_toNat, Nat.testBit_lt_two_pow hlt]
  · rintro rfl
    exact le64_nil

theorem tailpack_injective_of_length {a b : List Byte} (ha : a.length ≤ 7) (hlen : a.length = b.length)
    (h : tailpack a = tailpack b) : a = b := by
  calc a
    _ = byteLanes a.length (tailpack a) := (byteLanes_tailpack ha).symm
    _ = byteLanes b.length (tailpack b) := by rw [hlen, h]
    _ = b := byteLanes_tailpack (hlen ▸ ha)

theorem tailpack_byteLanes_of_lt {n : Nat} (hn : n ≤ 7) {v : Word} (hv : v.toNat < 2 ^ (8 * n)) :
    tailpack (byteLanes n v) = v := by
  apply BitVec.eq_of_toNat_eq
  rw [toNat_tailpack_byteLanes hn, Nat.mod_eq_of_lt hv]

/-- Settles O37: for a fixed length, taking the byte lanes inverts packing on both sides. -/
theorem tailpackIsInjectivePerLength : Obligations.TailpackIsInjectivePerLength := by
  refine ⟨fun n hn => ⟨fun a b ha hb hab => ?_, fun v => ⟨fun hv => ?_, ?_⟩⟩, by decide⟩
  · exact tailpack_injective_of_length (ha ▸ hn) (ha.trans hb.symm) hab
  · exact ⟨byteLanes n v, byteLanes_length n v, tailpack_byteLanes_of_lt hn hv⟩
  · rintro ⟨a, rfl, rfl⟩
    exact tailpack_toNat_lt hn

/-! ## The command -/

/-- The words of TAILPACK (41_tail_packer.md R91) are the encodings. -/
theorem encode_tailpack_ofNat {n : Nat} (hn : n ≤ 7) :
    encode (.tailpack (BitVec.ofNat 4 n)) = 0x06 ||| (BitVec.ofNat 64 n <<< 4) := by
  simp only [encode, opcode, lenOperand, zeroExtend_ofNat_len (show n < 16 by omega)]
  rfl

theorem decode_tailpack_word {n : Nat} (hn : n ≤ 7) :
    decode (0x06 ||| (BitVec.ofNat 64 n <<< 4)) = .legal (.tailpack (BitVec.ofNat 4 n)) := by
  have hlen : (BitVec.ofNat 4 n).toNat = n := Nat.mod_eq_of_lt (by omega)
  rw [← encode_tailpack_ofNat hn]
  exact decode_encode ((wellFormed_tailpack_iff _).mpr (hlen.symm ▸ hn))

/-- A word of TAILPACK's opcode that is not one of its words fails the check of RSV or, past it, of LEN. -/
theorem decode_illegal_tailpack {c : Word} (hop : opField c = 6) :
    (rsvField c ≠ 0 → decode c = .illegal .reservedBits) ∧
      (rsvField c = 0 → 8 ≤ (lenField c).toNat → decode c = .illegal .badLen) := by
  have hcommand : commandOf (opField c) (lenField c) = some (.tailpack (lenField c)) := by rw [hop]; rfl
  refine ⟨decode_reservedBits (hcommand ▸ Option.some_ne_none _), fun hrsv hlen => ?_⟩
  exact decode_badLen (i := .tailpack (lenField c)) hrsv hop rfl (decide_eq_false (Nat.not_le.mpr hlen))

theorem byteLanes_congr {n : Nat} {v w : Word} (h : ∀ i < n, byteLane v i = byteLane w i) :
    byteLanes n v = byteLanes n w :=
  List.map_congr_left fun i hi => h i (List.mem_range.mp hi)

/-- Settles O34: the words by the decoder's checks, the effect by `execTailpack_legal`, and the corners by the mask. -/
theorem tailpackCommand : Obligations.TailpackCommand := by
  refine ⟨⟨fun n hn => decode_tailpack_word hn, fun c hop => decode_illegal_tailpack hop⟩, ?_, exec_tailpack_zero_dout,
    fun n s s' hn hlanes => ?_, fun s => ?_, fun s hdin => ?_⟩
  · rintro n s bytes hn rfl
    exact execTailpack_legal n s hn
  · exact ⟨_, _, execTailpack_legal n s hn, execTailpack_legal n s' hn, congrArg tailpack (byteLanes_congr hlanes)⟩
  · obtain ⟨t, ht, hdout⟩ := exec_tailpack_seven_dout s
    have hmask : (0x00ffffffffffffff : Word).extractLsb' 56 8 = 0 := by decide
    refine ⟨t, ht, ?_⟩
    rw [hdout, BitVec.extractLsb'_and, hmask]
    exact BitVec.and_zero
  · obtain ⟨t, ht, hdout⟩ := exec_tailpack_dout (n := 3) (by decide) s
    refine ⟨t, ht, ?_⟩
    rw [hdout, hdin]
    decide

end Sys2Proof.Machine
end

section
/-! PROOFS. The streaming engine's commands (42_stream_engine.md R100 to R105, R109, R114): the fold, INIT, WRITE and FINISH. -/

namespace Sys2Proof.Machine

/-! ## The fold -/

theorem lanes_get_mix (l : Lanes) (i k : Fin 4) (v : Word) :
    (l.mix i v).get k = if k = i then diffuse (l.get k ^^^ v) else l.get k := by
  by_cases hk : k = i
  · subst hk
    rw [if_pos rfl]
    exact lanes_get_set_same l k _
  · rw [if_neg hk]
    exact lanes_get_set_other l i k _ hk

theorem lanes_set_eq (l : Lanes) (i : Fin 4) (v : Word) :
    l.set i v = ⟨if i = 0 then v else l.l0, if i = 1 then v else l.l1, if i = 2 then v else l.l2,
      if i = 3 then v else l.l3⟩ := by
  fin_cases i <;> rfl

/-- Settles O42: the fold mixes into lane LI, and LI is a number modulo 4. -/
theorem foldUpdatesOneLane : Obligations.FoldUpdatesOneLane := by
  intro v s
  refine ⟨?_, fun j hj => ?_, ?_, rfl⟩
  · rw [fold_lanes, lanes_get_mix, if_pos rfl]
  · rw [fold_lanes, lanes_get_mix, if_neg hj]
  · rw [fold_li, Fin.val_add]
    rfl

/-! ## FINISH -/

/-- FINISH combines the lanes themselves if no byte is pending (42_stream_engine.md R105). -/
theorem finalLanes_of_noTail {s : State} (h : s.pb.length = 0) : finalLanes s = s.lanes :=
  if_neg (h ▸ Nat.lt_irrefl 0)

/-- FINISH mixes pending bytes into lane LI of its copy (42_stream_engine.md R105). -/
theorem finalLanes_of_tail {s : State} (h : 0 < s.pb.length) : finalLanes s = s.lanes.mix s.li (tailpack s.pb) :=
  if_pos h

/-- The digest reads nothing but the engine. -/
theorem digest_eq_of_sameEngine {s t : State} (h : SameEngine s t) : digest s = digest t := by
  obtain ⟨hlanes, hli, htotal, hpb⟩ := h
  rw [digest, digest, finalLanes, finalLanes, State.pbc, State.pbc, hlanes, hli, htotal, hpb]

/-- FINISH gives the one-shot hash of what the engine holds. -/
theorem finish_of_engineHolds {S : List Byte} {s : State} (h : EngineHolds S s) :
    ∃ u, exec .finish s = .next u ∧ u.dout = oneShotHash S :=
  ⟨_, exec_finish s, digest_of_engineHolds S s h⟩

/-- Settles O46: the length mixed in is a word, so only its value modulo 2^64 counts. -/
theorem digestMixesLengthModulo : Obligations.DigestMixesLengthModulo := by
  intro S s h
  obtain ⟨t, ht, hdout⟩ := finish_of_engineHolds h
  have hmod : BitVec.ofNat 64 (S.length % 2 ^ 64) = BitVec.ofNat 64 S.length := by
    apply BitVec.eq_of_toNat_eq
    simp only [BitVec.toNat_ofNat, Nat.mod_mod]
  exact ⟨t, ht, by rw [hdout, hmod]; rfl⟩

theorem oneShotHash_nil : oneShotHash [] = diffuse (seed0 ^^^ seed1 ^^^ seed2 ^^^ seed3 ^^^ 0) := rfl

theorem seeds_xor : seed0 ^^^ seed1 ^^^ seed2 ^^^ seed3 ^^^ (0 : Word) = 0xd96ac97576b6d758 := by decide

theorem oneShotHash_nil_value : oneShotHash [] = 14492805990617963705 := by
  rw [oneShotHash_nil, seeds_xor]
  decide

/-- Settles O45: the empty input leaves the lanes at the seeds, and the number is the mixer's value on their XOR. -/
theorem emptyDigest : Obligations.EmptyDigest :=
  ⟨oneShotHash_nil, seeds_xor, oneShotHash_nil_value, oneShotHash_nil_value⟩

/-! ## INIT -/

theorem engineHolds_initEngine (s : State) : EngineHolds [] (initEngine s) :=
  engineHolds_seeds _ ⟨rfl, rfl, rfl, rfl⟩

/-- Settles O38: the word by the decoder's checks, the effect by `exec_init`, and the digest as that of no bytes. -/
theorem initCommand : Obligations.InitCommand := by
  refine ⟨⟨rfl, decode_encode (i := .init) rfl, fun c hop hne => ?_⟩, exec_init, rfl, fun s => ?_⟩
  · exact decode_of_ne_encode (i := .init) hop rfl hne
  · obtain ⟨u, hu, hdout⟩ := finish_of_engineHolds (engineHolds_initEngine s)
    exact ⟨_, u, exec_init s, hu, hdout.trans oneShotHash_nil_value⟩

/-! ## WRITE -/

/-- What WRITE does with its bytes, however many they are: TOTAL counts them, then each is absorbed
(42_stream_engine.md R101). -/
def accept (bytes : List Byte) (s : State) : State :=
  absorb bytes { s with total := s.total + BitVec.ofNat 64 bytes.length }

theorem exec_write {len : BitVec 4} (hlen : len.toNat ≤ 8) (s : State) :
    exec (.write len) s = .next (accept (byteLanes len.toNat s.din) s) := by
  rw [execWrite_legal len s hlen, accept, byteLanes_length, BitVec.ofNat_toNat]

/-- Below 8 pending bytes in all, WRITE only appends. -/
theorem accept_short {bytes : List Byte} {s : State} (h : s.pb.length + bytes.length < 8) :
    accept bytes s = { s with total := s.total + BitVec.ofNat 64 bytes.length, pb := s.pb ++ bytes } :=
  absorb_short bytes { s with total := s.total + BitVec.ofNat 64 bytes.length } h

/-- From 8 pending bytes on, WRITE folds one block (42_stream_engine.md R104). -/
theorem accept_long {bytes : List Byte} {s : State} (hpb : s.pb.length ≤ 7) (hbytes : bytes.length ≤ 8)
    (h : 8 ≤ s.pb.length + bytes.length) :
    accept bytes s = { s with
      total := s.total + BitVec.ofNat 64 bytes.length
      lanes := s.lanes.mix s.li (le64 ((s.pb ++ bytes).take 8)), li := s.li + 1, pb := (s.pb ++ bytes).drop 8 } :=
  absorb_long bytes { s with total := s.total + BitVec.ofNat 64 bytes.length } hpb h
    (show s.pb.length + bytes.length < 16 by omega)

/-- A WRITE of 8 bytes with none pending folds DIN (42_stream_engine.md R113). -/
theorem exec_write_eight {s : State} (hpb : s.pb = []) :
    exec (.write 8) s = .next { s with
      total := s.total + 8, lanes := s.lanes.mix s.li s.din, li := s.li + 1 } := by
  have hlong := accept_long (s := s) (bytes := byteLanes 8 s.din) (by simp [hpb]) (by simp) (by simp)
  rw [exec_write (by decide) s]
  change Host.Outcome.next (accept (byteLanes 8 s.din) s) = _
  rw [hlong, hpb, List.nil_append, List.take_of_length_le (by simp), List.drop_of_length_le (by simp),
    le64_byteLanes_eight, byteLanes_length, ← hpb]
  rfl

/-- Absorbing reads and writes LANE, LI and PB only. -/
theorem absorb_congr (bytes : List Byte) {s t : State} (hlanes : s.lanes = t.lanes) (hli : s.li = t.li)
    (hpb : s.pb = t.pb) : (absorb bytes s).lanes = (absorb bytes t).lanes ∧ (absorb bytes s).li = (absorb bytes t).li ∧
      (absorb bytes s).pb = (absorb bytes t).pb := by
  induction bytes generalizing s t with
  | nil => exact ⟨hlanes, hli, hpb⟩
  | cons b bytes ih =>
    rw [absorb_cons, absorb_cons]
    by_cases h8 : (t.pb ++ [b]).length = Config.blockBytes
    · rw [absorbByte, absorbByte, if_pos (hpb ▸ h8), if_pos h8]
      exact ih (by simp [hlanes, hli, hpb]) (by simp [hli]) rfl
    · rw [absorbByte, absorbByte, if_neg (hpb ▸ h8), if_neg h8]
      exact ih hlanes hli (by simp [hpb])

@[simp] theorem accept_total (bytes : List Byte) (s : State) :
    (accept bytes s).total = s.total + BitVec.ofNat 64 bytes.length := absorb_total _ _

/-- What WRITE makes of the engine depends on the engine and the bytes only. -/
theorem sameEngine_accept (bytes : List Byte) {s t : State} (h : SameEngine s t) :
    SameEngine (accept bytes s) (accept bytes t) := by
  obtain ⟨hlanes, hli, htotal, hpb⟩ := h
  obtain ⟨hlanes', hli', hpb'⟩ := absorb_congr bytes (s := { s with total := s.total + BitVec.ofNat 64 bytes.length })
    (t := { t with total := t.total + BitVec.ofNat 64 bytes.length }) hlanes hli hpb
  exact ⟨hlanes', hli', by rw [accept_total, accept_total, htotal], hpb'⟩

theorem engineHolds_accept {S : List Byte} {s : State} (h : EngineHolds S s) (bytes : List Byte) :
    EngineHolds (S ++ bytes) (accept bytes s) := by
  obtain ⟨hlanes, hli, htotal, hpb⟩ := h
  obtain ⟨hlanes', hli', hpb'⟩ :=
    lanesHold_absorb S bytes { s with total := s.total + BitVec.ofNat 64 bytes.length } ⟨hlanes, hli, hpb⟩
  exact ⟨hlanes', hli', by rw [accept_total, htotal, List.length_append, BitVec.ofNat_add], hpb'⟩

/-- The words of WRITE (42_stream_engine.md R101) are the encodings. -/
theorem encode_write_ofNat {n : Nat} (hn : n ≤ 8) :
    encode (.write (BitVec.ofNat 4 n)) = 0x02 ||| (BitVec.ofNat 64 n <<< 4) := by
  simp only [encode, opcode, lenOperand, zeroExtend_ofNat_len (show n < 16 by omega)]
  rfl

theorem decode_write_word {n : Nat} (hn : n ≤ 8) :
    decode (0x02 ||| (BitVec.ofNat 64 n <<< 4)) = .legal (.write (BitVec.ofNat 4 n)) := by
  have hlen : (BitVec.ofNat 4 n).toNat = n := Nat.mod_eq_of_lt (by omega)
  rw [← encode_write_ofNat hn]
  exact decode_encode ((wellFormed_write_iff _).mpr (hlen.symm ▸ hn))

/-- A word of WRITE's opcode that is not one of its words fails the check of RSV or, past it, of LEN. -/
theorem decode_illegal_write {c : Word} (hop : opField c = 2) :
    (rsvField c ≠ 0 → decode c = .illegal .reservedBits) ∧
      (rsvField c = 0 → 9 ≤ (lenField c).toNat → decode c = .illegal .badLen) := by
  obtain ⟨-, hreserved, -, hbadLen, -⟩ := decodeRunsChecksInOrder c
  exact ⟨hreserved (by rw [← opField, hop]; decide), fun hrsv hlen => hbadLen hrsv hop hlen⟩

/-- Settles O39: the words by the decoder's checks, the effect by `accept_short` and `accept_long`, and the corners by
them and by what WRITE reads. -/
theorem writeCommand : Obligations.WriteCommand := by
  refine ⟨⟨fun n hn => decode_write_word hn, fun c hop => decode_illegal_write hop⟩, ?_, fun s => ?_, fun s hpb => ?_,
    fun n s d hn hlanes => ?_, ?_⟩
  · rintro n s bytes v hn hpb rfl rfl
    have hexec := exec_write hn s
    have hlen := byteLanes_length n.toNat s.din
    refine ⟨fun h => ?_, fun h => ?_⟩
    · rw [hexec, accept_short (by omega), hlen]
      rfl
    · rw [hexec, accept_long hpb (by omega) (by omega), hlen, Lanes.mix, lanes_set_eq]
      rfl
  · rw [exec_write (by decide) s]
    change Host.Outcome.next (accept (byteLanes 0 s.din) s) = _
    simp [accept]
  · exact exec_write_eight hpb
  · refine ⟨_, _, exec_write hn s, exec_write hn { s with din := d }, ?_⟩
    rw [byteLanes_congr hlanes]
    exact sameEngine_accept _ ⟨rfl, rfl, rfl, rfl⟩
  · intro s t ht
    obtain rfl := Host.Outcome.next.inj ht
    refine ⟨_, exec_write_eight rfl, rfl, ?_, rfl, rfl, rfl⟩
    change diffuse (seed0 ^^^ 0x0807060504030201) = _
    decide

/-- Settles O43: the word by the decoder's checks, the effect by the lanes FINISH combines, and the example by what the
engine holds after INIT and WRITE. -/
theorem finishCommand : Obligations.FinishCommand := by
  refine ⟨⟨rfl, decode_encode (i := .finish) rfl, fun c hop hne => ?_⟩, fun s T hempty htail => ?_, fun s hpb hli => ?_,
    fun s => ?_⟩
  · exact decode_of_ne_encode (i := .finish) hop rfl hne
  · have hT : T = finalLanes s := by
      rcases Nat.eq_zero_or_pos s.pb.length with h | h
      · rw [hempty h, finalLanes_of_noTail h]
      · rw [htail h, finalLanes_of_tail h]
        rfl
    rw [exec_finish, hT]
    rfl
  · have hfinal : finalLanes s = s.lanes.set 0 (diffuse s.lanes.l0) := by
      rw [finalLanes_of_tail (by simp [hpb]), hpb, hli]
      exact congrArg (fun v => s.lanes.set 0 (diffuse v)) BitVec.xor_zero
    refine ⟨_, exec_finish s, ?_⟩
    rw [writeResult_dout, digest, hfinal]
    rfl
  · have hinit : EngineHolds [] { initEngine s with din := 0x00 } := engineHolds_initEngine s
    obtain ⟨v, hv, hdout⟩ := finish_of_engineHolds (engineHolds_accept hinit [0x00])
    exact ⟨_, _, v, exec_init s, exec_write (by decide) _, hv, hdout⟩

end Sys2Proof.Machine
end

section
/-! PROOFS. The streaming engine against the one-shot hash (42_stream_engine.md R108, R110 to R112): lane steering, whole runs,
chunking, and the pseudo-instruction hash. -/

namespace Sys2Proof.Machine

/-! ## Lane steering -/

/-- The reference function's loop after n blocks. -/
def blocksUpTo (buf : List Byte) (n : Nat) : Lanes × Fin 4 := (List.range n).foldl (hashBlock buf) (seedLanes, 0)

theorem blocksUpTo_succ (buf : List Byte) (n : Nat) :
    blocksUpTo buf (n + 1) = hashBlock buf (blocksUpTo buf n) n := by
  rw [blocksUpTo, List.range_succ, List.foldl_append]
  rfl

/-- Lane k when every fourth of the first n blocks, from block k on, has been folded into its seed, in order. -/
def laneUpTo (buf : List Byte) (k : Fin 4) (n : Nat) : Word :=
  ((List.range n).filter (fun j => j % 4 = k.val)).foldl
    (fun acc j => diffuse (acc ^^^ le64 (slice buf (8 * j) (8 * j + 8)))) (seedLanes.get k)

theorem laneUpTo_succ (buf : List Byte) (k : Fin 4) (n : Nat) :
    laneUpTo buf k (n + 1) = if n % 4 = k.val then
      diffuse (laneUpTo buf k n ^^^ le64 (slice buf (8 * n) (8 * n + 8))) else laneUpTo buf k n := by
  rw [laneUpTo, List.range_succ, List.filter_append, List.foldl_append, ← laneUpTo]
  by_cases hk : n % 4 = k.val
  · simp [hk]
  · simp [hk]

theorem blocksUpTo_li (buf : List Byte) (n : Nat) : (blocksUpTo buf n).2.val = n % 4 := by
  induction n with
  | zero => rfl
  | succ n ih =>
    rw [blocksUpTo_succ, hashBlock, Fin.val_add, ih]
    change (n % 4 + 1) % 4 = _
    omega

/-- Block j is mixed into lane j mod 4 and no other. -/
theorem blocksUpTo_get (buf : List Byte) (k : Fin 4) (n : Nat) : (blocksUpTo buf n).1.get k = laneUpTo buf k n := by
  induction n with
  | zero => rfl
  | succ n ih =>
    have hlane : k = (blocksUpTo buf n).2 ↔ n % 4 = k.val := by rw [Fin.ext_iff, blocksUpTo_li, eq_comm]
    rw [blocksUpTo_succ, hashBlock, lanes_get_mix, laneUpTo_succ, ih]
    simp only [hlane]

theorem hashBlocks_li (buf : List Byte) : (hashBlocks buf).2.val = buf.length / 8 % 4 :=
  blocksUpTo_li buf (buf.length / 8)

theorem hashBlocks_get (buf : List Byte) (k : Fin 4) : (hashBlocks buf).1.get k = laneUpTo buf k (buf.length / 8) :=
  blocksUpTo_get buf k (buf.length / 8)

/-- Settles O47: the blocks by induction on their number, the tail as one more mix into the lane that is next. -/
theorem blocksGoRoundRobin : Obligations.BlocksGoRoundRobin := by
  intro S lane hlane
  have hblocks (k : Fin 4) : (hashBlocks S).1.get k = lane k := (hashBlocks_get S k).trans (hlane k).symm
  refine ⟨hblocks, fun s k hS => ?_, fun htail k => ?_⟩
  · obtain ⟨hlanes, hli, -, -⟩ := hS
    exact ⟨hlanes ▸ hblocks k, hli ▸ hashBlocks_li S⟩
  · rw [hashLanes, if_pos htail, lanes_get_mix, hblocks]
    simp only [Fin.ext_iff, hashBlocks_li, hashTail]

/-! ## Runs of host programs -/

/-- No event touches the host's side: what is pending behind it, and where the window lies. -/
theorem eventEffect_hostSide {e : HostEvent} {s t : State} (h : EventEffect s e t) :
    t.pending = s.pending ∧ t.regBlock = s.regBlock := by
  cases h with
  | write c len => simp
  | _ => exact ⟨rfl, rfl⟩

/-- Only a loss of power makes a unit not ready. -/
theorem eventEffect_ready {e : HostEvent} {s t : State} (h : EventEffect s e t) (he : e ≠ .powerLoss)
    (hready : s.ready = true) : t.ready = true := by
  cases h with
  | powerLoss => exact absurd rfl he
  | reset o => rfl
  | write c len => simpa using hready
  | _ => exact hready

theorem step_hostSide {s t : State} {e : HostEvent} {rest : List HostEvent} (hp : s.pending = e :: rest)
    (h : step s = .next t) : t.pending = rest ∧ t.regBlock = s.regBlock := by
  rw [step_event e s rest hp] at h
  exact eventEffect_hostSide (eventEffect_of_serveEvent h)

theorem step_ready {s t : State} {e : HostEvent} {rest : List HostEvent} (hp : s.pending = e :: rest)
    (he : e ≠ .powerLoss) (hready : s.ready = true) (h : step s = .next t) : t.ready = true := by
  rw [step_event e s rest hp] at h
  exact eventEffect_ready (eventEffect_of_serveEvent h) he hready

/-- The first step of a completed host program, and the program that is left. -/
theorem completes_cons {s t : State} {e : HostEvent} {rest : List HostEvent} (hp : s.pending = e :: rest)
    (h : Completes s t) :
    ∃ u, step s = .next u ∧ u.pending = rest ∧ u.regBlock = s.regBlock ∧ Completes u t := by
  rw [Completes, hp, List.length_cons] at h
  obtain ⟨u, hstep, hrun⟩ := (runs_succ_iff _ _ _).mp h
  obtain ⟨hpending, hblock⟩ := step_hostSide hp hstep
  exact ⟨u, hstep, hpending, hblock, by rwa [Completes, hpending]⟩

/-- What every step on an allowed event keeps holds when a program of such events is done. `P` may speak of the bytes
accepted so far. -/
theorem completes_induction {P : List Byte → State → Prop} {ok : HostEvent → Prop}
    (hkeep : ∀ S s u e rest, s.pending = e :: rest → ok e → step s = .next u → P S s → P (acceptedAfter S s e) u)
    {S : List Byte} {s t : State} (hok : ∀ e ∈ s.pending, ok e) (h : Completes s t) (hP : P S s) :
    P (acceptedAlong s.pending.length S s) t := by
  induction hp : s.pending generalizing S s with
  | nil =>
    rw [Completes, hp] at h
    exact (runs_zero_iff s t).mp h ▸ hP
  | cons e rest ih =>
    obtain ⟨u, hstep, hpending, -, hrun⟩ := completes_cons hp h
    rw [hp] at hok
    rw [List.length_cons, acceptedAlong_cons _ S hp hstep]
    refine ih (fun e' he' => hok e' (List.mem_cons_of_mem e (hpending ▸ he'))) hrun ?_ hpending
    exact hkeep S s u e rest hp (hok e List.mem_cons_self) hstep hP

/-! ## Streaming equals one-shot -/

/-- Every event but a loss of power keeps that the unit is ready and holds the accepted bytes. -/
theorem completes_engineHolds {S : List Byte} {s t : State} (hready : s.ready = true) (hS : EngineHolds S s)
    (hpower : ∀ e ∈ s.pending, e ≠ .powerLoss) (hrun : Completes s t) :
    EngineHolds (acceptedAlong s.pending.length S s) t := by
  refine (completes_induction (P := fun S u => u.ready = true ∧ EngineHolds S u) ?_ hpower hrun ⟨hready, hS⟩).right
  intro S u v e rest hp he hstep ⟨hr, hS⟩
  have hr' := step_ready hp he hr hstep
  exact ⟨hr', stepKeepsEngineExact S u v e rest (fun _ => hS) hp hstep hr'⟩

/-- Settles O52: a fresh engine holds no bytes, and after the run it holds those accepted. -/
theorem streamingEqualsOneShot : Obligations.StreamingEqualsOneShot := by
  rintro s t S hready hfresh hpower hrun rfl -
  exact finish_of_engineHolds (completes_engineHolds hready (engineHolds_seeds s hfresh) hpower hrun)

/-! ## Chunking -/

theorem sameEngine_symm {s t : State} (h : SameEngine s t) : SameEngine t s := by
  obtain ⟨hlanes, hli, htotal, hpb⟩ := h
  exact ⟨hlanes.symm, hli.symm, htotal.symm, hpb.symm⟩

theorem sameEngine_trans {s t u : State} (h : SameEngine s t) (h' : SameEngine t u) : SameEngine s u := by
  obtain ⟨hlanes, hli, htotal, hpb⟩ := h
  obtain ⟨hlanes', hli', htotal', hpb'⟩ := h'
  exact ⟨hlanes.trans hlanes', hli.trans hli', htotal.trans htotal', hpb.trans hpb'⟩

theorem engineHolds_of_sameEngine {S : List Byte} {s t : State} (h : SameEngine s t) (hS : EngineHolds S t) :
    EngineHolds S s := by
  obtain ⟨hlanes, hli, htotal, hpb⟩ := h
  obtain ⟨hlanes', hli', htotal', hpb'⟩ := hS
  exact ⟨hlanes.trans hlanes', hli.trans hli', htotal.trans htotal', hpb.trans hpb'⟩

theorem sameEngine_accept_append (x y : List Byte) (s : State) :
    SameEngine (accept y (accept x s)) (accept (x ++ y) s) := by
  obtain ⟨hlanes, hli, hpb⟩ := absorb_congr x (s := { s with total := s.total + BitVec.ofNat 64 x.length })
    (t := { s with total := s.total + BitVec.ofNat 64 (x ++ y).length }) rfl rfl rfl
  have htotal : (accept y (accept x s)).total = (accept (x ++ y) s).total := by
    simp only [accept_total, List.length_append, BitVec.ofNat_add, BitVec.add_assoc]
  obtain ⟨hlanes', hli', hpb'⟩ := absorb_congr y
    (s := { accept x s with total := (accept x s).total + BitVec.ofNat 64 y.length }) hlanes hli hpb
  rw [← absorb_append] at hlanes' hli' hpb'
  exact ⟨hlanes', hli', htotal, hpb'⟩

/-- A software write of one chunk: WRITE takes the chunk back out of the byte lanes it was packed into. -/
theorem writeChunk_some {chunk : List Byte} (h : chunk.length ≤ 8) (s : State) :
    writeChunk (some s) chunk = some (accept chunk { s with din := le64 chunk }) := by
  have hlen : (BitVec.ofNat 4 chunk.length).toNat = chunk.length := Nat.mod_eq_of_lt (by omega)
  have hexec := exec_write (len := BitVec.ofNat 4 chunk.length) (by omega) { s with din := le64 chunk }
  rw [hlen, byteLanes_le64 chunk h] at hexec
  simp only [writeChunk, hexec]

/-- Chunk after chunk, the engine accepts the bytes one after another. -/
theorem writeChunks_sameEngine {chunks : List (List Byte)} (h : ∀ c ∈ chunks, c.length ≤ 8) (s : State) :
    ∃ t, writeChunks chunks s = some t ∧ SameEngine t (accept chunks.flatten s) := by
  induction chunks generalizing s with
  | nil => exact ⟨s, rfl, by simp [accept, SameEngine]⟩
  | cons chunk chunks ih =>
    obtain ⟨t, ht, hsame⟩ :=
      ih (fun c hc => h c (List.mem_cons_of_mem _ hc)) (accept chunk { s with din := le64 chunk })
    refine ⟨t, ?_, sameEngine_trans hsame ?_⟩
    · rw [writeChunks, List.foldl_cons, writeChunk_some (h chunk List.mem_cons_self)]
      exact ht
    · have hdin : SameEngine { s with din := le64 chunk } s := ⟨rfl, rfl, rfl, rfl⟩
      exact sameEngine_trans (sameEngine_accept_append _ _ _) (sameEngine_accept _ hdin)

/-- Settles O53: both splits leave the engine in which the bytes they have in common have been accepted. -/
theorem chunkingIsInvisible : Obligations.ChunkingIsInvisible := by
  intro s chunks chunks' hflat hle hle'
  obtain ⟨t, ht, hsame⟩ := writeChunks_sameEngine hle s
  obtain ⟨t', ht', hsame'⟩ := writeChunks_sameEngine hle' s
  rw [← hflat] at hsame'
  refine ⟨t, t', ht, ht', sameEngine_trans hsame (sameEngine_symm hsame'), fun hfresh _ => ?_⟩
  exact finish_of_engineHolds (engineHolds_of_sameEngine hsame (engineHolds_accept (engineHolds_seeds s hfresh) _))

/-! ## The pseudo-instruction hash -/

theorem assemble_append {s : State} {x y : List AsmLine} {events events' : List HostEvent}
    (hx : assemble s x = some events) (hy : assemble s y = some events') :
    assemble s (x ++ y) = some (events ++ events') := by
  unfold assemble at hx hy ⊢
  simp [List.mapM_append, hx, hy]

/-- A step on a pending write of INIT's word, the counterpart of `step_diffuse`. -/
theorem step_init (s : State) (rest : List HostEvent) (hr : s.ready = true)
    (hp : s.pending = .access ⟨32 * s.regBlock, 8, .write 0x01⟩ :: rest) :
    step s = .next (initEngine { s with pending := rest }) := by
  have hdecode : decode 0x01 = .legal .init := by decide
  rw [step_command 0x01 .init s rest hr hp hdecode, exec_init]

/-- A step on a pending write of FINISH's word, the counterpart of `step_diffuse`. -/
theorem step_finish (s : State) (rest : List HostEvent) (hr : s.ready = true)
    (hp : s.pending = .access ⟨32 * s.regBlock, 8, .write 0x03⟩ :: rest) :
    step s = .next (writeResult (digest { s with pending := rest }) { s with pending := rest }) := by
  have hdecode : decode 0x03 = .legal .finish := by decide
  rw [step_command 0x03 .finish s rest hr hp hdecode, exec_finish]

/-- Settles O54: INIT, then `absorb` as it is known to run, then FINISH. -/
theorem hashSequenceComputesHash : Obligations.HashSequenceComputesHash := by
  intro s bytes events hr _ hassemble
  obtain ⟨chunks, hchunks, habsorbs⟩ := assemble_absorbLines s bytes
  have hlines := assemble_cons (line := .init) rfl
    (assemble_append hchunks (assemble_cons (lines := []) (line := .finish) rfl rfl))
  obtain rfl := Option.some.inj (hlines.symm.trans hassemble)
  obtain ⟨t, ht⟩ := habsorbs [] [.access (writeAccess s .cmd 0x03)]
    (initEngine { s with pending := chunks ++ [.access (writeAccess s .cmd 0x03)] }) hr rfl (engineHolds_initEngine _) rfl
  have hfinish := step_finish t [] ht.ready (by rw [ht.pending, ht.regBlock]; rfl)
  refine ⟨writeResult (digest { t with pending := [] }) { t with pending := [] }, ?_,
    digest_of_engineHolds bytes _ ht.engine, rfl, by simp [ht.status]⟩
  rw [Completes, List.length_cons, List.length_append]
  exact runs_cons (step_init _ _ hr rfl) (runs_add ht.runs (runs_cons hfinish ((runs_zero_iff _ _).mpr rfl)))

end Sys2Proof.Machine
end

section
/-! PROOFS. FINISH between other commands (42_stream_engine.md R106): what leaves the engine alone, and what commands read. -/

namespace Sys2Proof.Machine

/-! ## Programs that leave the engine -/

theorem commandOrDinWrite_congr {s t : State} {ok : Word → Prop} {e : HostEvent} (hblock : t.regBlock = s.regBlock)
    (h : CommandOrDinWrite s ok e) : CommandOrDinWrite t ok e := by
  rwa [CommandOrDinWrite, hblock]

/-- The word is no INIT and no WRITE. -/
abbrev NoEngineCommand (c : Word) : Prop := decode c ≠ .legal .init ∧ ∀ n, decode c ≠ .legal (.write n)

/-- A command that is no WRITE and no INIT, or a write to DIN, leaves the engine as it is. -/
theorem step_sameEngine {s t : State} {e : HostEvent} {rest : List HostEvent} (hp : s.pending = e :: rest)
    (he : CommandOrDinWrite s NoEngineCommand e) (hstep : step s = .next t) : SameEngine s t := by
  by_contra hne
  rcases onlyInitAndWriteChangeEngine s t hstep hne with ⟨c, i, rest', hp', hd, hi⟩ | ⟨o, rest', hp'⟩ | ⟨rest', hp'⟩
  · obtain ⟨w, rfl | ⟨rfl, hinit, hwrite⟩⟩ := he
    · simp [hp] at hp'
    · obtain ⟨rfl, -⟩ : w = c ∧ rest = rest' := by simpa [hp] using hp'
      rcases hi with rfl | ⟨n, rfl⟩
      · exact hinit hd
      · exact hwrite n hd
  · obtain ⟨w, rfl | ⟨rfl, -⟩⟩ := he <;> simp [hp] at hp'
  · obtain ⟨w, rfl | ⟨rfl, -⟩⟩ := he <;> simp [hp] at hp'

/-- So a program of such events leaves it, however long the program is. -/
theorem completes_sameEngine {s t : State} (hrun : Completes s t)
    (hok : ∀ e ∈ s.pending, CommandOrDinWrite s NoEngineCommand e) : SameEngine s t := by
  refine (completes_induction (P := fun _ u => SameEngine s u ∧ u.regBlock = s.regBlock) (S := []) ?_ hok hrun
    ⟨⟨rfl, rfl, rfl, rfl⟩, rfl⟩).left
  intro _ u v e rest hp he hstep ⟨hsame, hblock⟩
  obtain ⟨-, hblock'⟩ := step_hostSide hp hstep
  exact ⟨sameEngine_trans hsame (step_sameEngine hp (commandOrDinWrite_congr hblock he) hstep), hblock'.trans hblock⟩

/-! ## Programs that run alike on two units -/

/-- Two units agree on all that commands and writes to DIN read. They may differ in DOUT and STATUS, which a FINISH
writes, and in what was read of them. -/
structure SameInputs (s s' : State) : Prop where
  engine : SameEngine s s'
  din : s.din = s'.din
  ready : s.ready = s'.ready
  regBlock : s.regBlock = s'.regBlock
  pending : s.pending = s'.pending

/-- What a command makes of the engine depends on the engine and DIN only. -/
theorem exec_sameEngine {i : Instr} {s s' t t' : State} (h : SameEngine s s') (hdin : s.din = s'.din)
    (ht : exec i s = .next t) (ht' : exec i s' = .next t') : SameEngine t t' := by
  have hresult (hi : IsResult i) : SameEngine t t' :=
    sameEngine_trans (sameEngine_symm (exec_result_sameEngine ht hi))
      (sameEngine_trans h (exec_result_sameEngine ht' hi))
  cases i with
  | init =>
    obtain rfl := Host.Outcome.next.inj ht
    obtain rfl := Host.Outcome.next.inj ht'
    exact ⟨rfl, rfl, rfl, rfl⟩
  | write len =>
    by_cases hlen : len.toNat ≤ 8
    · rw [exec_write hlen] at ht ht'
      obtain rfl := Host.Outcome.next.inj ht
      obtain rfl := Host.Outcome.next.inj ht'
      exact hdin ▸ sameEngine_accept _ h
    · rw [execWrite_illegal len _ (by omega)] at ht ht'
      obtain rfl := Host.Outcome.next.inj ht
      obtain rfl := Host.Outcome.next.inj ht'
      exact h
  | finish => exact hresult (.inl rfl)
  | diffuse => exact hresult (.inr (.inl rfl))
  | undiffuse => exact hresult (.inr (.inr (.inl rfl)))
  | tailpack len => exact hresult (.inr (.inr (.inr ⟨len, rfl⟩)))

theorem runCommand_sameInputs {s s' t : State} (h : SameInputs s s') {c : Word} (ht : runCommand c s = .next t) :
    ∃ t', runCommand c s' = .next t' ∧ SameInputs t t' := by
  cases hd : decode c with
  | legal i =>
    rw [runCommand_legal hd] at ht ⊢
    obtain ⟨t', ht'⟩ := exec_completes i s'
    obtain ⟨hdin, hready, -, hblock, hpending, -⟩ := exec_host_frame ht
    obtain ⟨hdin', hready', -, hblock', hpending', -⟩ := exec_host_frame ht'
    exact ⟨t', ht', exec_sameEngine h.engine h.din ht ht', by rw [hdin, hdin', h.din], by rw [hready, hready', h.ready],
      by rw [hblock, hblock', h.regBlock], by rw [hpending, hpending', h.pending]⟩
  | illegal cause =>
    rw [runCommand_illegal hd] at ht ⊢
    obtain rfl := Host.Outcome.next.inj ht
    exact ⟨_, rfl, h.engine, h.din, h.ready, h.regBlock, h.pending⟩

/-- Units that agree so far still do after a command or a write to DIN. -/
theorem step_sameInputs {s s' t : State} {ok : Word → Prop} {e : HostEvent} {rest : List HostEvent}
    (h : SameInputs s s') (hr : s.ready = true) (hp : s.pending = e :: rest) (he : CommandOrDinWrite s ok e)
    (hstep : step s = .next t) : ∃ t', step s' = .next t' ∧ SameInputs t t' := by
  have hr' : s'.ready = true := h.ready ▸ hr
  have hp' : s'.pending = e :: rest := h.pending ▸ hp
  have hrest : SameInputs { s with pending := rest } { s' with pending := rest } :=
    ⟨h.engine, h.din, h.ready, h.regBlock, rfl⟩
  obtain ⟨w, rfl | ⟨rfl, -⟩⟩ := he
  · rw [step_din w s rest hr hp] at hstep
    obtain rfl := Host.Outcome.next.inj hstep
    exact ⟨_, step_din w s' rest hr' (h.regBlock ▸ hp'), h.engine, rfl, h.ready, h.regBlock, rfl⟩
  · rw [step_access .cmd (.write w) s rest hr hp] at hstep
    rw [step_access .cmd (.write w) s' rest hr' (h.regBlock ▸ hp')]
    exact runCommand_sameInputs hrest hstep

/-- So a program of commands and writes to DIN runs alike on both. -/
theorem completes_sameInputs {s s' t : State} {ok : Word → Prop} (h : SameInputs s s') (hr : s.ready = true)
    (hok : ∀ e ∈ s.pending, CommandOrDinWrite s ok e) (hrun : Completes s t) :
    ∃ t', Completes s' t' ∧ SameInputs t t' := by
  induction hp : s.pending generalizing s s' with
  | nil =>
    rw [Completes, hp] at hrun
    obtain rfl := (runs_zero_iff s t).mp hrun
    rw [h.pending] at hp
    exact ⟨s', by rw [Completes, hp]; exact (runs_zero_iff s' s').mpr rfl, h⟩
  | cons e rest ih =>
    obtain ⟨u, hstep, hpending, hblock, hrun'⟩ := completes_cons hp hrun
    have he := hok e (hp ▸ List.mem_cons_self)
    obtain ⟨u', hstep', hu⟩ := step_sameInputs h hr hp he hstep
    have hr' : u.ready = true := step_ready hp (by obtain ⟨w, rfl | ⟨rfl, -⟩⟩ := he <;> simp) hr hstep
    have hok' (e' : HostEvent) (he' : e' ∈ u.pending) : CommandOrDinWrite u ok e' :=
      commandOrDinWrite_congr hblock (hok e' (hp ▸ List.mem_cons_of_mem e (hpending ▸ he')))
    obtain ⟨t', hrest, ht'⟩ := ih hu hr' hok' hrun' hpending
    refine ⟨t', ?_, ht'⟩
    rw [Completes, ← hu.pending, hpending] at hrest
    rw [Completes, ← h.pending, hp]
    exact runs_cons hstep' hrest

/-- Settles O44: FINISH writes DOUT and STATUS, the commands between two FINISHes leave the engine, and what a FINISH writes
no later command reads. -/
theorem finishIsRepeatable : Obligations.FinishIsRepeatable := by
  refine ⟨fun s => ⟨_, exec_finish s, rfl, rfl, rfl, rfl⟩, fun s u rest hr hp hok hrun => ?_,
    fun s u rest hr hp hok hrun => ?_⟩
  · obtain ⟨v, hstep, -, -, hrest⟩ := completes_cons hp hrun
    rw [step_finish s rest hr hp] at hstep
    obtain rfl := Host.Outcome.next.inj hstep
    have hsame := completes_sameEngine hrest hok
    exact ⟨_, _, exec_finish s, exec_finish u, (digest_eq_of_sameEngine (s := s) hsame).symm⟩
  · have hstep := step_finish s rest hr hp
    have hinputs : SameInputs { s with pending := rest }
        (writeResult (digest { s with pending := rest }) { s with pending := rest }) :=
      ⟨⟨rfl, rfl, rfl, rfl⟩, rfl, rfl, rfl, rfl⟩
    obtain ⟨u', hrun', hu⟩ := completes_sameInputs hinputs hr hok hrun
    refine ⟨u', ?_, hu.engine, _, _, exec_finish u, exec_finish u', digest_eq_of_sameEngine hu.engine⟩
    rw [Completes, hp]
    exact runs_cons hstep hrun'

end Sys2Proof.Machine
end

section
/-! PROOFS. Exceptions (60_exceptions.md): loss of power and reset, the idle unit, the illegal-command action, and the legal
commands, none of which takes it. -/

namespace Sys2Proof.Machine

/-! ## Loss of power, reset and idleness -/

theorem step_powerLoss {s : State} {rest : List HostEvent} (hp : s.pending = .powerLoss :: rest) :
    step s = .next (losePower { s with pending := rest }) :=
  step_event .powerLoss s rest hp

theorem step_reset {s : State} {o : Option Access} {rest : List HostEvent} (hp : s.pending = .reset o :: rest) :
    step s = .next (resetUnit { s with pending := rest }) :=
  step_event (.reset o) s rest hp

theorem step_notReset {s : State} {a : Access} {rest : List HostEvent} (hr : s.ready = false)
    (hp : s.pending = .access a :: rest) : step s = .fault .notReset :=
  (step_event (.access a) s rest hp).trans (serveAccess_notReset a { s with pending := rest } hr)

/-- Settles O9: a loss of power clears `ready`, an access looks at `ready` before anything else, and a reset sets it. -/
theorem powerLossRequiresReset : Obligations.PowerLossRequiresReset := by
  refine ⟨fun s rest hp => ?_, fun s a rest hr hp => step_notReset hr hp, fun s o rest _ hp => ?_⟩
  · exact ⟨_, step_powerLoss hp, rfl, rfl, rfl, rfl⟩
  · exact ⟨_, step_reset hp, rfl⟩

/-- Settles O10: it is the idle case of a step. -/
theorem idleUnitHoldsItsState : Obligations.IdleUnitHoldsItsState :=
  fun _ hp => step_idle hp

/-! ## The illegal-command action, and the commands that never take it -/

/-- Settles O15: the step is `raiseIllegal` of the decoded cause, and each code listed is its cause's `causeCode`. -/
theorem illegalCommandOnlyRecordsError : Obligations.IllegalCommandOnlyRecordsError := by
  intro s c cause code rest hcode hr hp hd
  have hcause : code = causeCode cause := by
    simp only [List.mem_cons, Prod.mk.injEq, List.not_mem_nil, or_false] at hcode
    rcases hcode with ⟨rfl, rfl⟩ | ⟨rfl, rfl⟩ | ⟨rfl, rfl⟩ <;> rfl
  subst hcause
  exact step_illegal c cause s rest hr hp hd

/-- INIT and WRITE leave STATUS, a result command sets DVALID only, and the error is recorded for ill-formed commands
only. -/
theorem exec_keeps_err_ecause {i : Instr} {s t : State} (hwf : i.WellFormed) (h : exec i s = .next t) :
    t.status.err = s.status.err ∧ t.status.ecause = s.status.ecause := by
  rcases exec_cases h with ⟨-, rfl⟩ | ⟨len, -, -, rfl⟩ | ⟨v, rfl, -⟩ | ⟨hill, -⟩
  · exact ⟨rfl, rfl⟩
  · simp
  · exact ⟨rfl, rfl⟩
  · exact absurd hwf hill

/-- Settles O48: every command completes, and a well-formed one keeps ERR and ECAUSE. -/
theorem legalCommandsNeverFail : Obligations.LegalCommandsNeverFail := by
  intro i s hwf
  obtain ⟨t, ht⟩ := exec_completes i s
  exact ⟨t, ht, exec_keeps_err_ecause hwf ht⟩

end Sys2Proof.Machine
end

section
/-! PROOFS. Reset (70_reset_and_hazards.md). -/

namespace Sys2Proof.Machine

/-- The seeds as R21 lists them. -/
theorem seedLanes_eq :
    seedLanes = ⟨0x16f11fe89b0d677c, 0xb480a793d8e6c86c, 0x6fe2e5aaf078ebc9, 0x14f994a4c5259381⟩ := rfl

/-- Settles O7: the step is `resetUnit` whatever access the reset overlaps, and `resetUnit` writes each element's reset
value and leaves the host's side. -/
theorem resetEventSetsEveryElement : Obligations.ResetEventSetsEveryElement := by
  intro s overlapped rest hp
  rw [step_reset hp, resetUnit, seedLanes_eq, clearStatus]

end Sys2Proof.Machine
end
